-- ==== Sys2Proof/Word.lean ====
section
/-! DEFINITION. The word types of FPCODEC's ports (00_scope.md R3, 10_state.md R12) and the names of the three
precisions (30_encoding.md R42). -/

namespace Sys2Proof

/-- An operand or response word: 64 bits (00_scope.md R3). -/
abbrev Word := BitVec 64

/-- The command word CMD: 32 bits (10_state.md R12). -/
abbrev CmdWord := BitVec 32

/-- A precision: binary16, binary32 or binary64, under the letters of 30_encoding.md R42. -/
inductive Prec where
  | H
  | S
  | D
  deriving DecidableEq, Repr, Inhabited

end Sys2Proof
end

