-- ==== Sys2Proof/Syntax.lean ====
section
/-! DEFINITION. The commands of FPCODEC, one constructor for each row of opcode_table.json, and the fields of a
command word (30_encoding.md R40, R41). -/

namespace Sys2Proof

/-- A command with its precision p (30_encoding.md R41, R42). Every term is one of the 39 legal commands of R53. -/
inductive Instr where
  /-- `PDESC.p` (40_precision.md R67). -/
  | pdesc (p : Prec)
  /-- `FTOB.p a` (41_codec.md R80). -/
  | ftob (p : Prec)
  /-- `FTOBS.p a` (41_codec.md R81). -/
  | ftobs (p : Prec)
  /-- `BTOF.p bits` (41_codec.md R82). -/
  | btof (p : Prec)
  /-- `BTOFS.p i` (41_codec.md R83). -/
  | btofs (p : Prec)
  /-- `CVTN.p a` (41_codec.md R84). -/
  | cvtn (p : Prec)
  /-- `CVTW.p a` (41_codec.md R86). -/
  | cvtw (p : Prec)
  /-- `ULPD.p a, b` (42_ulp.md R100, SGN = 0). -/
  | ulpd (p : Prec)
  /-- `ULPDS.p a, b` (42_ulp.md R100, SGN = 1). -/
  | ulpds (p : Prec)
  /-- `CMPU.p a, b, tol` (42_ulp.md R103). -/
  | cmpu (p : Prec)
  /-- `NEXT.p x, y` (43_nextafter.md R120). -/
  | next (p : Prec)
  /-- `INSPF.p a` (44_inspector.md R130). -/
  | inspf (p : Prec)
  /-- `INSPB.p bits` (44_inspector.md R131). -/
  | inspb (p : Prec)
  deriving DecidableEq, Repr

/-- The fields of a command word (30_encoding.md R40), in the order of its bits. -/
structure CmdFields where
  op       : BitVec 8
  prec     : BitVec 2
  sgn      : BitVec 1
  src      : BitVec 2
  reserved : BitVec 19
  deriving DecidableEq, Repr

end Sys2Proof
end

