-- ==== Sys2Proof/WellFormed.lean ====
section
/-! DEFINITION. Which field values form a legal command: the six checks of 30_encoding.md R46, one function each.
A term of Instr is legal by its type; the raw fields of a command word need not be. -/

namespace Sys2Proof

/-- The assigned values of OP (30_encoding.md R41). -/
def assignedOps : List (BitVec 8) :=
  [0x01, 0x10, 0x11, 0x12, 0x13, 0x14, 0x15, 0x20, 0x21, 0x30, 0x40]

/-- `CMD[31:13]` is 0 (R45). -/
def CmdFields.reservedClear (f : CmdFields) : Bool := f.reserved == 0

/-- OP is assigned (R41). -/
def CmdFields.opAssigned (f : CmdFields) : Bool := assignedOps.contains f.op

/-- PREC is not 3 (R42). -/
def CmdFields.precAssigned (f : CmdFields) : Bool := f.prec != 3

/-- SGN is 1 only with OP = 0x20 (R43). -/
def CmdFields.sgnAllowed (f : CmdFields) : Bool := f.sgn == 0 || f.op == 0x20

/-- SRC is non-zero only with OP = 0x40 (R44). -/
def CmdFields.srcAllowed (f : CmdFields) : Bool := f.src == 0 || f.op == 0x40

/-- With OP = 0x40, exactly one of the two sources is present (R44, 44_inspector.md R133). -/
def CmdFields.oneSource (f : CmdFields) : Bool := f.op != 0x40 || (f.src == 1 || f.src == 2)

/-- The fields of a legal command: every check of R46 passes. -/
def CmdFields.wellFormed (f : CmdFields) : Bool :=
  f.reservedClear && f.opAssigned && f.precAssigned && f.sgnAllowed && f.srcAllowed && f.oneSource

end Sys2Proof
end

