-- ==== Sys2Proof/Decode.lean ====
section
/-! DEFINITION. Decoding a command word (30_encoding.md R40 to R46) and, after it, the encoder. Decoding is total:
a word that names no command is rejected under the name of the first check of R46 that it fails. -/

namespace Sys2Proof

/-- The checks of `Decode` in R46, each under a name of its own. -/
inductive Reject where
  /-- `CMD[31:13]` is not 0: ILLEGAL (R45). -/
  | reservedBits
  /-- OP is unassigned: ILLEGAL (R41). -/
  | unassignedOp
  /-- PREC = 3: ILLEGAL (R42). -/
  | reservedPrec
  /-- SGN = 1 and OP is not 0x20: ILLEGAL (R43). -/
  | sgnNotAllowed
  /-- SRC is not 0 and OP is not 0x40: ILLEGAL (R44). -/
  | srcNotAllowed
  /-- OP = 0x40 with neither or both sources: USAGE (R44). -/
  | notOneSource
  deriving DecidableEq, Repr

/-- The fields of a command word (R40). -/
def CmdFields.ofWord (w : CmdWord) : CmdFields where
  op       := w.extractLsb' 0 8
  prec     := w.extractLsb' 8 2
  sgn      := w.extractLsb' 10 1
  src      := w.extractLsb' 11 2
  reserved := w.extractLsb' 13 19

/-- A row of the opcode map: OP, SGN, SRC and the command they select (R41). -/
structure OpRow where
  op   : BitVec 8
  sgn  : BitVec 1
  src  : BitVec 2
  make : Prec → Instr

/-- The opcode map of R41, 13 rows. -/
def opRows : List OpRow :=
  [⟨0x01, 0, 0, .pdesc⟩,
   ⟨0x10, 0, 0, .ftob⟩, ⟨0x11, 0, 0, .ftobs⟩, ⟨0x12, 0, 0, .btof⟩, ⟨0x13, 0, 0, .btofs⟩,
   ⟨0x14, 0, 0, .cvtn⟩, ⟨0x15, 0, 0, .cvtw⟩,
   ⟨0x20, 0, 0, .ulpd⟩, ⟨0x20, 1, 0, .ulpds⟩, ⟨0x21, 0, 0, .cmpu⟩,
   ⟨0x30, 0, 0, .next⟩,
   ⟨0x40, 0, 1, .inspf⟩, ⟨0x40, 0, 2, .inspb⟩]

/-- The precision a PREC value names (R42). -/
def precOf (pr : BitVec 2) : Option Prec :=
  if pr = 0 then some .H else if pr = 1 then some .S else if pr = 2 then some .D else none

/-- The command of the row for (op, sgn, src), at precision p (R46, last lines). -/
def selectCommand (f : CmdFields) (p : Prec) : Option Instr :=
  (opRows.find? fun r => r.op == f.op && r.sgn == f.sgn && r.src == f.src).map fun r => r.make p

/-- `Decode` of R46 on the fields: its checks in its order, then the row. -/
def CmdFields.decode (f : CmdFields) : Except Reject Instr :=
  if !f.reservedClear then .error .reservedBits
  else if !f.opAssigned then .error .unassignedOp
  else match precOf f.prec with
    | none => .error .reservedPrec
    | some p =>
      if !f.sgnAllowed then .error .sgnNotAllowed
      else if !f.srcAllowed then .error .srcNotAllowed
      else if !f.oneSource then .error .notOneSource
      else match selectCommand f p with
        | some i => .ok i
        | none => .error .unassignedOp

/-- `Decode(cmd)` of R46: total on all 2^32 words. -/
def decode (w : CmdWord) : Except Reject Instr := (CmdFields.ofWord w).decode

/-- The instruction that a word of opcode_table.json's numbering decodes to; FPCODEC has one command length, 32
bits (R54), so the table's bits are the command word's own. -/
def decodeTableWord (nbits w : Nat) : Option Instr :=
  if nbits ≤ 32 ∧ w < 2 ^ 32 then
    match decode (BitVec.ofNat 32 w) with
    | .ok i => some i
    | .error _ => none
  else none

/-- PREC of a precision (R42). -/
def Prec.code : Prec → Nat
  | .H => 0
  | .S => 1
  | .D => 2

/-- `CMD = OP | (PREC << 8) | (SGN << 10) | (SRC << 11)` (R40). -/
def packCommand (op : Nat) (p : Prec) (sgn src : Nat) : CmdWord :=
  BitVec.ofNat 32 (op ||| (p.code <<< 8) ||| (sgn <<< 10) ||| (src <<< 11))

/-- The command word of a command (R40, R41, and the "Encoding" lines of R67 to R131). -/
def encode : Instr → CmdWord
  | .pdesc p => packCommand 0x01 p 0 0
  | .ftob p  => packCommand 0x10 p 0 0
  | .ftobs p => packCommand 0x11 p 0 0
  | .btof p  => packCommand 0x12 p 0 0
  | .btofs p => packCommand 0x13 p 0 0
  | .cvtn p  => packCommand 0x14 p 0 0
  | .cvtw p  => packCommand 0x15 p 0 0
  | .ulpd p  => packCommand 0x20 p 0 0
  | .ulpds p => packCommand 0x20 p 1 0
  | .cmpu p  => packCommand 0x21 p 0 0
  | .next p  => packCommand 0x30 p 0 0
  | .inspf p => packCommand 0x40 p 0 1
  | .inspb p => packCommand 0x40 p 0 2

/-- The 39 legal commands: 13 rows, each at three precisions (R53). -/
def legalCommands : List Instr :=
  opRows.flatMap fun r => [r.make .H, r.make .S, r.make .D]

end Sys2Proof
end

