-- ==== Sys2Proof/Config.lean ====
section
/-! DEFINITION. What an implementation of FPCODEC fixes and this spec leaves OPEN (00_scope.md R4), and the free
values that 93_implementation_defined.md calls "any value". None has a body that Lean could evaluate, so a
statement holds for every value of each. -/

namespace Sys2Proof

/-- The byte order of a bus wrapper a platform may put around the ports (00_scope.md R4, 20_memory.md R32). -/
inductive ByteOrder where
  | little
  | big
  deriving DecidableEq, Repr, Inhabited

/-- QDEPTH - 1. Open (U13); log 2. -/
opaque Config.qDepthLess1 : Nat

/-- QDEPTH, "the most accepted requests whose responses are not yet delivered", an integer >= 1 (00_scope.md R4). -/
def Config.qDepth : Nat := Config.qDepthLess1 + 1

/-- WRAPPER_BYTE_ORDER. Open (U15); log 15. No step of the block reads it. -/
opaque Config.wrapperByteOrder : ByteOrder

/-- Whether `req_ready` stalls at the n-th edge, past the scripted choices. Free (U11); log 3. -/
opaque Config.freeStall : Nat → Bool

/-- Whether `rsp_valid` waits at the n-th edge, past the scripted choices. Free (U12); log 4. -/
opaque Config.freeDefer : Nat → Bool

/-- LATENCY - 1 of a request accepted at the n-th edge, past the scripted choices. Open (U14); log 4. -/
opaque Config.freeLatencyLess1 : Nat → Nat

/-- What the i-th response port shows at the n-th edge while `rsp_valid` = 0, which 70_reset_and_hazards.md R174
does not state. Free; log 4. -/
opaque Config.freeRspWord : Nat → Nat → Word

end Sys2Proof
end

