-- ==== Sys2Proof/Machine/Format.lean ====
section
/-! DEFINITION. The notation of 00_scope.md section 4 (bit fields, extensions), the descriptor ROM and the functions
on encodings (40_precision.md R60 to R68). An encoding of precision p is an unsigned integer below 2^t(p), as the
spec has it; every function takes the descriptor row of p. -/

namespace Sys2Proof.Machine

/-- `v[hi:lo]`, "the field of bits hi down to lo of v, as an unsigned integer" (00_scope.md 4). -/
def bits (v hi lo : Nat) : Nat := v / 2 ^ lo % 2 ^ (hi + 1 - lo)

/-- `v[i]`, a single bit (00_scope.md 4). -/
def bit (v i : Nat) : Nat := v / 2 ^ i % 2

/-- `zext_64(v)` (00_scope.md 4). -/
def zext64 (v : Nat) : Word := BitVec.ofNat 64 v

/-- `tc_64(i)`, an integer as a two's-complement word (00_scope.md 4). -/
def tc64 (i : Int) : Word := BitVec.ofInt 64 i

/-- `sext_64(v[n-1:0])`, the n-bit field read as two's complement (00_scope.md 4). -/
def sext64 (n v : Nat) : Word :=
  let f := bits v (n - 1) 0
  tc64 (if bit f (n - 1) = 1 then (f : Int) - 2 ^ n else f)

/-- `sval_64(w)`, a word read as two's complement (00_scope.md 4). -/
def sval64 (w : Word) : Int :=
  if bit w.toNat 63 = 1 then (w.toNat : Int) - 2 ^ 64 else w.toNat

/-- A row of the descriptor ROM: total_bits, exp_bits, mant_bits, bias (R60). -/
structure Desc where
  total : Nat
  exp   : Nat
  mant  : Nat
  bias  : Nat
  deriving DecidableEq, Repr

/-- The descriptor ROM: "3 rows of 4 integers" (10_state.md R10). -/
structure Rom where
  h : Desc
  s : Desc
  d : Desc
  deriving DecidableEq, Repr

/-- The constant contents of the ROM (R60). -/
def Rom.table : Rom where
  h := ⟨16, 5, 10, 15⟩
  s := ⟨32, 8, 23, 127⟩
  d := ⟨64, 11, 52, 1023⟩

/-- The row of a precision. -/
def Rom.row (r : Rom) : Prec → Desc
  | .H => r.h
  | .S => r.s
  | .D => r.d

namespace Desc

/-- `x` is an encoding of this precision: an integer in `[0, 2^t(p))` (R62, 00_scope.md 5). -/
abbrev Encoding (d : Desc) (x : Nat) : Prop := x < 2 ^ d.total

/-- `sign(x, p)` (R62). -/
def sign (d : Desc) (x : Nat) : Nat := bit x (d.total - 1)

/-- `rexp(x, p)` (R62). -/
def rexp (d : Desc) (x : Nat) : Nat := bits x (d.total - 2) d.mant

/-- `rmant(x, p)` (R62). -/
def rmant (d : Desc) (x : Nat) : Nat := bits x (d.mant - 1) 0

/-- `EMAX(p)`, the all-ones exponent field (R63). -/
def emax (d : Desc) : Nat := 2 ^ d.exp - 1

/-- `is_negative` (R63). -/
def isNegative (d : Desc) (x : Nat) : Bool := d.sign x == 1

/-- `is_inf` (R63). -/
def isInf (d : Desc) (x : Nat) : Bool := d.rexp x == d.emax && d.rmant x == 0

/-- `is_nan` (R63). -/
def isNan (d : Desc) (x : Nat) : Bool := d.rexp x == d.emax && d.rmant x != 0

/-- `is_sub` (R63). -/
def isSub (d : Desc) (x : Nat) : Bool := d.rexp x == 0 && d.rmant x != 0

/-- `is_zero` (R63). -/
def isZero (d : Desc) (x : Nat) : Bool := d.rexp x == 0 && d.rmant x == 0

/-- `is_finite` (R63). -/
def isFinite (d : Desc) (x : Nat) : Bool := d.rexp x != d.emax

/-- `mag(x, p)`, the encoding with its sign bit cleared (R64). -/
def mag (d : Desc) (x : Nat) : Nat := bits x (d.total - 2) 0

/-- `key(x, p)`, the ordering key (R64). -/
def key (d : Desc) (x : Nat) : Int := if d.sign x = 1 then -(d.mag x : Int) else d.mag x

/-- `quiet(x, p) = x OR 2^(m(p)-1)` (R65). -/
def quiet (d : Desc) (x : Nat) : Nat := x ||| 2 ^ (d.mant - 1)

/-- `SIGNMASK(p)`, -0.0 (R68). -/
def signMask (d : Desc) : Nat := 2 ^ (d.total - 1)

/-- `MIN_SUB(p)` (R68). -/
def minSub (_ : Desc) : Nat := 1

/-- `MIN_NORM(p)` (R68). -/
def minNorm (d : Desc) : Nat := 2 ^ d.mant

/-- `MAX_FIN(p)` (R68). -/
def maxFin (d : Desc) : Nat := ((2 ^ d.exp - 2) <<< d.mant) ||| (2 ^ d.mant - 1)

/-- `INF(p)` (R68). -/
def inf (d : Desc) : Nat := (2 ^ d.exp - 1) <<< d.mant

/-- `QNAN(p)` (R68). -/
def qnan (d : Desc) : Nat := d.inf ||| 2 ^ (d.mant - 1)

/-- `ONE(p)` (R68). -/
def one (d : Desc) : Nat := d.bias <<< d.mant

/-- The integer significand of a finite encoding: `rmant` where `rexp` is 0, else `2^m + rmant` (R66). -/
def significand (d : Desc) (x : Nat) : Nat :=
  if d.rexp x = 0 then d.rmant x else 2 ^ d.mant + d.rmant x

/-- The power of two that the significand is scaled by (R66). -/
def scale (d : Desc) (x : Nat) : Int :=
  if d.rexp x = 0 then 1 - d.bias - d.mant else (d.rexp x : Int) - d.bias - d.mant

/-- `value(x, p)` of a finite encoding, a rational number (R66). -/
def finiteValue (d : Desc) (x : Nat) : ℚ :=
  (-1) ^ d.sign x * (d.significand x : ℚ) * (2 : ℚ) ^ d.scale x

end Desc

/-- What an encoding stands for (R66): a real number, an infinity with its sign, or no value (a NaN). -/
inductive Value where
  | finite (r : ℚ)
  | infinite (negative : Bool)
  | nan
  deriving DecidableEq

/-- `value(x, p)` (R66), with NaNs told apart. -/
def Desc.value (d : Desc) (x : Nat) : Value :=
  if d.isNan x then .nan
  else if d.isInf x then .infinite (d.isNegative x)
  else .finite (d.finiteValue x)

/-- The order of values that 40_precision.md R64 states: -infinity below every real number, +infinity above. -/
def Value.lt : Value → Value → Prop
  | .finite a, .finite b => a < b
  | .finite _, .infinite n => n = false
  | .infinite n, .finite _ => n = true
  | .infinite m, .infinite n => m = true ∧ n = false
  | .nan, _ => False
  | _, .nan => False

end Sys2Proof.Machine
end

