-- ==== Sys2Proof/Machine/State.lean ====
section
/-! DEFINITION. The state of FPCODEC at a rising edge of `clk` (10_state.md R10, 70_reset_and_hazards.md R169): the
three pieces the spec names, the values on the input ports, what the channel rules R175 and R177 remember, and the
model's own fields that hold what the spec leaves free. -/

namespace Sys2Proof.Machine

/-- The four words of a request (10_state.md R12). -/
structure Request where
  cmd : CmdWord
  a   : Word
  b   : Word
  c   : Word
  deriving DecidableEq, Repr

/-- The six words of a response (10_state.md R13). -/
structure Response where
  status : Word
  res    : Word
  irexp  : Word
  irmant : Word
  iexp   : Word
  imnum  : Word
  deriving DecidableEq, Repr

/-- An entry of Q: a response, and how many edges LATENCY still keeps it back (70_reset_and_hazards.md R175). -/
structure Entry where
  rsp  : Response
  wait : Nat
  deriving DecidableEq, Repr

/-- What the spec leaves to the implementation at one edge (R4, R175; U11, U12, U14). -/
structure Choice where
  /-- `req_ready` is 0 though Q has room. -/
  stall : Bool
  /-- `rsp_valid` is not raised at this edge though it could be. -/
  defer : Bool
  /-- LATENCY - 1 of a request accepted at this edge. -/
  latencyLess1 : Nat
  deriving DecidableEq, Repr

/-- What the requester drives, and the implementation chooses, at one edge (R169, R180). -/
structure Drive where
  rst      : Bool
  reqValid : Bool
  req      : Request
  rspReady : Bool
  choice   : Choice
  deriving DecidableEq, Repr

/-- The state just before a rising edge of `clk`. -/
structure State where
  /-- The descriptor ROM (10_state.md R10, 40_precision.md R60). -/
  rom      : Rom
  /-- The response queue Q, oldest first (10_state.md R10). -/
  q        : List Entry
  /-- in_reset, "whether the reset input is asserted" (10_state.md R10): port `rst`. -/
  inReset  : Bool
  /-- Port `req_valid` (R169). -/
  reqValid : Bool
  /-- Ports `req_cmd`, `req_a`, `req_b`, `req_c` (R169). -/
  req      : Request
  /-- Port `rsp_ready` (R169). -/
  rspReady : Bool
  /-- The implementation's choices at this edge. The model's own field; log 3, log 4. -/
  choice   : Choice
  /-- The request offered at an earlier edge and not accepted, which R177 binds the requester to. -/
  held     : Option Request
  /-- `rsp_valid` was 1 at the last edge and the head did not transfer (R175). -/
  offered  : Bool
  /-- What is driven and chosen at the edges after this one. The model's own field; log 5. -/
  script   : List Drive
  /-- The number of edges so far, the index of the free values. The model's own field; log 3. -/
  edge     : Nat
  deriving DecidableEq, Repr

/-- Why the machine stops with a fault: no reason exists. "FPCODEC itself never halts, faults or hangs" (R180); an
error is a response (60_exceptions.md R154). Log 10. -/
inductive Fault where
  deriving DecidableEq, Repr

/-- Why the model gives a step no meaning. -/
inductive Refusal where
  /-- Raised by exec for a command that has no meaning yet; safe. -/
  | notModelled (mnemonic : String)
  /-- Raised by step when the requester changes or drops a request it offered and that was not accepted: "a model
  refuses such a run and gives it no behaviour" (R177, U16); safe. -/
  | requestChanged
  deriving DecidableEq, Repr

/-- The error codes (60_exceptions.md R150). -/
inductive Err where
  | illegal
  | nonfinite
  | negtol
  | usage
  | range
  deriving DecidableEq, Repr

/-- A request of zeros: what the ports carry when nothing is offered. DESIGN CHOICE, log 7. -/
def Request.zero : Request := ⟨0, 0, 0, 0⟩

/-- The state after reset (10_state.md R19), the reset input released and the ports idle (log 7). -/
def State.reset : State where
  rom      := Rom.table
  q        := []
  inReset  := false
  reqValid := false
  req      := Request.zero
  rspReady := false
  choice   := ⟨false, false, 0⟩
  held     := none
  offered  := false
  script   := []
  edge     := 0

end Sys2Proof.Machine
end

