-- ==== Sys2Proof/Machine/Operands.lean ====
section
/-! DEFINITION. The operand forms (30_encoding.md R47 to R50). Which command reads which word in which form, and in
which order, is R51; each command's meaning reads its words so. -/

namespace Sys2Proof.Machine

/-- `Typed(w, p)`: a float or an unsigned bit pattern of precision p; RANGE if a bit above t(p) is set (R47). With
t(p) = 64 no word has such a bit. -/
def typed (d : Desc) (w : Word) : Except Err Nat :=
  if w.toNat / 2 ^ d.total ≠ 0 then .error .range else .ok (bits w.toNat (d.total - 1) 0)

/-- `SignedBits(w, p)`: a two's-complement integer of t(p) bits, held as a word; RANGE outside (R48). -/
def signedBits (d : Desc) (w : Word) : Except Err Nat :=
  if sext64 d.total w.toNat ≠ w then .error .range else .ok (bits w.toNat (d.total - 1) 0)

/-- The tolerance: word C as a two's-complement integer, no range check (R49). -/
def tolerance (w : Word) : Int := sval64 w

/-- The native operand: any word, as a binary64 encoding, no range check (R50). -/
def native (w : Word) : Nat := w.toNat

end Sys2Proof.Machine
end

