-- ==== Sys2Proof/Machine/Flags.lean ====
section
/-! DEFINITION. The STATUS word (10_state.md R13, R14) and the error codes (60_exceptions.md R150). -/

namespace Sys2Proof.Machine

/-- `STATUS.ERR` of an error (R150). -/
def Err.code : Err → Nat
  | .illegal   => 1
  | .nonfinite => 2
  | .negtol    => 3
  | .usage     => 4
  | .range     => 5

/-- The fields of STATUS (R13). A field that a command does not write is 0 (R14), which the defaults say. -/
structure StatusFields where
  err    : Nat  := 0
  ok     : Bool := false
  neg    : Bool := false
  true'  : Bool := false
  iSign  : Bool := false
  iNeg   : Bool := false
  iInf   : Bool := false
  iNan   : Bool := false
  iSub   : Bool := false
  iValid : Bool := false
  deriving DecidableEq, Repr

/-- The STATUS word of its fields: each field at the place of its lowest bit (R13). Bits 7 and 63:14 are 0. -/
def StatusFields.pack (f : StatusFields) : Word :=
  zext64 (f.err + f.ok.toNat * 2 ^ 4 + f.neg.toNat * 2 ^ 5 + f.true'.toNat * 2 ^ 6
    + f.iSign.toNat * 2 ^ 8 + f.iNeg.toNat * 2 ^ 9 + f.iInf.toNat * 2 ^ 10
    + f.iNan.toNat * 2 ^ 11 + f.iSub.toNat * 2 ^ 12 + f.iValid.toNat * 2 ^ 13)

/-- The fields that a STATUS word holds (R13). -/
def StatusFields.unpack (w : Word) : StatusFields where
  err    := bits w.toNat 3 0
  ok     := bit w.toNat 4 == 1
  neg    := bit w.toNat 5 == 1
  true'  := bit w.toNat 6 == 1
  iSign  := bit w.toNat 8 == 1
  iNeg   := bit w.toNat 9 == 1
  iInf   := bit w.toNat 10 == 1
  iNan   := bit w.toNat 11 == 1
  iSub   := bit w.toNat 12 == 1
  iValid := bit w.toNat 13 == 1

/-- The fields of a response's STATUS. -/
def Response.flags (r : Response) : StatusFields := StatusFields.unpack r.status

end Sys2Proof.Machine
end

