-- ==== Sys2Proof/Machine/Ops.lean ====
section
/-! DEFINITION. The operations every command shares: building a response, appending it to Q, and raising an error.
Raising an error is the whole of "taking an exception" here: nothing is saved, no mode changes, control goes nowhere,
and there is no return from it (60_exceptions.md R154, R155). -/

namespace Sys2Proof.Machine

/-- The response of all-zero words, which a command's rule then writes into (10_state.md R14). -/
def Response.zero : Response := ⟨0, 0, 0, 0, 0, 0⟩

/-- A successful response: `RES`, and STATUS with `OK` = 1 and the flags the command writes (R13, R14). -/
def Response.success (res : Word) (flags : StatusFields := {}) : Response :=
  { Response.zero with status := { flags with ok := true }.pack, res := res }

/-- The error response of 60_exceptions.md R151: the code in STATUS, every other word 0. -/
def Response.error (e : Err) : Response :=
  { Response.zero with status := zext64 e.code }

/-- Appends a response to the tail of Q (70_reset_and_hazards.md R173). It may be offered LATENCY edges later, so
LATENCY - 1 edges are left once this one is over (R175). -/
def State.push (s : State) (r : Response) : State :=
  { s with q := s.q ++ [⟨r, s.choice.latencyLess1⟩] }

/-- `raise <Error>`: ends the command with its error response (00_scope.md 4.1, 60_exceptions.md R151). -/
def raise (e : Err) (s : State) : Host.Outcome State Fault Refusal :=
  .next (s.push (Response.error e))

/-- Ends a command: its response if it succeeded, else the error it raised. -/
def State.answer (s : State) : Except Err Response → Host.Outcome State Fault Refusal
  | .ok r    => .next (s.push r)
  | .error e => raise e s

/-- Replaces Q and the memory of an offer. -/
def State.setQueue (s : State) (q : List Entry) (offered : Bool) : State :=
  { s with q := q, offered := offered }

/-- Replaces the memory of an unaccepted request. -/
def State.setHeld (s : State) (held : Option Request) : State :=
  { s with held := held }

/-- Puts an edge's values on the input ports, and takes its choices. -/
def State.drive (s : State) (d : Drive) : State :=
  { s with inReset := d.rst, reqValid := d.reqValid, req := d.req, rspReady := d.rspReady, choice := d.choice }

/-- Replaces the script and counts the edge. -/
def State.nextEdge (s : State) (script : List Drive) : State :=
  { s with script := script, edge := s.edge + 1 }

end Sys2Proof.Machine
end

