-- ==== Sys2Proof/Machine/Codec.lean ====
section
/-! DEFINITION. The bit-pattern codec (41_codec.md): FTOB, FTOBS, BTOF, BTOFS, and the format conversions CVTN and
CVTW. -/

namespace Sys2Proof.Machine

/-- FTOB's response (R80). -/
def ftob (d : Desc) (a : Word) : Except Err Response := do
  let x ← typed d a
  pure (.success (zext64 x))

/-- FTOBS's response (R81). -/
def ftobs (d : Desc) (a : Word) : Except Err Response := do
  let x ← typed d a
  pure (.success (sext64 d.total x))

/-- BTOF's response (R82). -/
def btof (d : Desc) (a : Word) : Except Err Response := do
  let b ← typed d a
  pure (.success (zext64 b))

/-- BTOFS's response (R83). -/
def btofs (d : Desc) (a : Word) : Except Err Response := do
  let b ← signedBits d a
  pure (.success (zext64 b))

/-- `RoundHalfEven(num / den)`, "the integer nearest the rational r; when r lies exactly halfway between two
integers, the even one" (R84). -/
def roundHalfEven (num den : Nat) : Nat :=
  let below := num / den
  let rest := num % den
  if 2 * rest < den then below
  else if den < 2 * rest then below + 1
  else if below % 2 = 0 then below
  else below + 1

/-- `RoundHalfEven(n * 2^k)` for an integer k, in integers: for k < 0 the rational is `n / 2^(-k)`, which is below one
half, and so rounds to 0, where n has more than one bit less than the divisor (log 11). -/
def roundScaled (n : Nat) (k : Int) : Nat :=
  if 0 ≤ k then n * 2 ^ k.toNat
  else if Nat.log2 n + 1 < (-k).toNat then 0
  else roundHalfEven n (2 ^ (-k).toNat)

/-- `n * 2^q >= 2^k` for integers q and k, by the leading bit of n (log 11). -/
def scaledAtLeast (n : Nat) (q k : Int) : Bool := decide (0 < n ∧ k ≤ q + Nat.log2 n)

/-- The magnitude `mg` of CVTN for a finite non-zero operand (R84). `src` is the descriptor of the operand (binary64)
and `d` that of the result. With |value(a)| = sig * 2^sc, the E of R84 is sc + log2 sig. -/
def narrowMagnitude (src d : Desc) (a : Nat) : Nat :=
  let sig := src.significand a
  let sc := src.scale a
  let e : Int := sc + (Nat.log2 sig : Int)
  let q : Int := max e (1 - d.bias) - d.mant
  let n := roundScaled sig (sc - q)
  if scaledAtLeast n q (d.bias + 1) then d.inf
  else if n < 2 ^ d.mant then n
  else
    let (n, q) := if n = 2 ^ (d.mant + 1) then (2 ^ d.mant, q + 1) else (n, q)
    ((q + d.mant + d.bias).toNat <<< d.mant) ||| (n - 2 ^ d.mant)

/-- `NarrowNaN(a, p)` (R85). -/
def narrowNan (src d : Desc) (a : Nat) : Nat :=
  (src.sign a <<< (d.total - 1)) ||| d.inf ||| (src.rmant a >>> (52 - d.mant)) ||| 2 ^ (d.mant - 1)

/-- The result `r` of CVTN for p in H, S (R84). -/
def narrow (src d : Desc) (a : Nat) : Nat :=
  if src.isNan a then narrowNan src d a
  else if src.isInf a then (src.sign a <<< (d.total - 1)) ||| d.inf
  else if src.isZero a then src.sign a <<< (d.total - 1)
  else (src.sign a <<< (d.total - 1)) ||| narrowMagnitude src d a

/-- CVTN's response (R84); with p = D, bit for bit. -/
def cvtn (rom : Rom) (p : Prec) (a : Word) : Response :=
  let x := native a
  match p with
  | .D => .success a
  | .H => .success (zext64 (narrow rom.d rom.h x))
  | .S => .success (zext64 (narrow rom.d rom.s x))

/-- The result `r` of CVTW for p in H, S (R86); `d` is the descriptor of the operand and `dst` that of binary64. -/
def widen (d dst : Desc) (a : Nat) : Nat :=
  let s := d.sign a
  if d.isNan a then (s <<< 63) ||| dst.inf ||| (d.rmant a <<< (52 - d.mant)) ||| 2 ^ 51
  else if d.isInf a then (s <<< 63) ||| dst.inf
  else if d.isZero a then s <<< 63
  else if d.isSub a then
    let k := Nat.log2 (d.rmant a) + 1
    (s <<< 63) ||| ((k + 1023 - d.mant - d.bias) <<< 52) ||| ((d.rmant a - 2 ^ (k - 1)) <<< (53 - k))
  else (s <<< 63) ||| ((d.rexp a + 1023 - d.bias) <<< 52) ||| (d.rmant a <<< (52 - d.mant))

/-- CVTW's response (R86); with p = D, the operand. -/
def cvtw (rom : Rom) (p : Prec) (a : Word) : Except Err Response := do
  let x ← typed (rom.row p) a
  pure (.success (zext64 (match p with
    | .D => x
    | .H => widen rom.h rom.d x
    | .S => widen rom.s rom.d x)))

/-- FTOB (R80). -/
def execFtob (p : Prec) (s : State) : Host.Outcome State Fault Refusal :=
  s.answer (ftob (s.rom.row p) s.req.a)

/-- FTOBS (R81). -/
def execFtobs (p : Prec) (s : State) : Host.Outcome State Fault Refusal :=
  s.answer (ftobs (s.rom.row p) s.req.a)

/-- BTOF (R82). -/
def execBtof (p : Prec) (s : State) : Host.Outcome State Fault Refusal :=
  s.answer (btof (s.rom.row p) s.req.a)

/-- BTOFS (R83). -/
def execBtofs (p : Prec) (s : State) : Host.Outcome State Fault Refusal :=
  s.answer (btofs (s.rom.row p) s.req.a)

/-- CVTN (R84). -/
def execCvtn (p : Prec) (s : State) : Host.Outcome State Fault Refusal :=
  s.answer (.ok (cvtn s.rom p s.req.a))

/-- CVTW (R86). -/
def execCvtw (p : Prec) (s : State) : Host.Outcome State Fault Refusal :=
  s.answer (cvtw s.rom p s.req.a)

end Sys2Proof.Machine
end

