-- ==== Sys2Proof/Machine/Inspector.lean ====
section
/-! DEFINITION. The float decomposer (44_inspector.md): INSPF, INSPB. -/

namespace Sys2Proof.Machine

/-- The magnitude n of the mantissa's numerator, `|mantissa| * 2^m(p)` (R132, R134). -/
def Desc.mantissaNumerator (d : Desc) (v : Nat) : Nat :=
  if d.rexp v ≠ 0 then 2 ^ d.mant + d.rmant v else 2 * d.rmant v

/-- `Inspect(v, p)` (R132): the whole view of an encoding, infinities and NaNs by the same formulas (R135). -/
def inspect (d : Desc) (v : Nat) : Response where
  status := StatusFields.pack
    { ok := true, iSign := d.sign v == 1, iNeg := d.isNegative v, iInf := d.isInf v, iNan := d.isNan v,
      iSub := d.isSub v, iValid := true }
  res    := zext64 v
  irexp  := zext64 (d.rexp v)
  irmant := zext64 (d.rmant v)
  iexp   := tc64 ((d.rexp v : Int) - d.bias)
  imnum  := tc64 (if d.sign v = 1 then -(d.mantissaNumerator v : Int) else d.mantissaNumerator v)

/-- INSPF's response (R130): the operand is "first normalized by converting to bits and back", that is FTOB's RES
read by BTOF. -/
def inspf (d : Desc) (a : Word) : Except Err Response := do
  let v ← typed d a
  let v ← typed d (zext64 v)
  pure (inspect d v)

/-- INSPB's response (R131). -/
def inspb (d : Desc) (a : Word) : Except Err Response := do
  let v ← typed d a
  pure (inspect d v)

/-- INSPF (R130). -/
def execInspf (p : Prec) (s : State) : Host.Outcome State Fault Refusal :=
  s.answer (inspf (s.rom.row p) s.req.a)

/-- INSPB (R131). -/
def execInspb (p : Prec) (s : State) : Host.Outcome State Fault Refusal :=
  s.answer (inspb (s.rom.row p) s.req.a)

end Sys2Proof.Machine
end

