-- ==== Sys2Proof/Machine/Nextafter.lean ====
section
/-! DEFINITION. The adjacent-value engine (43_nextafter.md): NEXT. -/

namespace Sys2Proof.Machine

/-- The result `r` of NEXT, the four rules of R120 in order. -/
def nextToward (d : Desc) (x y : Nat) : Nat :=
  if d.isNan x then d.quiet x
  else if d.isNan y then d.quiet y
  else if d.key x = d.key y then y
  else if d.mag x = 0 then (d.sign y <<< (d.total - 1)) ||| d.minSub
  else if xor (decide (d.key x < d.key y)) (d.sign x == 1) then x + 1
  else x - 1

/-- NEXT's response (R120). -/
def nextafter (d : Desc) (a b : Word) : Except Err Response := do
  let x ← typed d a
  let y ← typed d b
  pure (.success (zext64 (nextToward d x y)))

/-- NEXT (R120). -/
def execNext (p : Prec) (s : State) : Host.Outcome State Fault Refusal :=
  s.answer (nextafter (s.rom.row p) s.req.a s.req.b)

end Sys2Proof.Machine
end

