-- ==== Sys2Proof/Machine/Precision.lean ====
section
/-! DEFINITION. The descriptor command (40_precision.md R67). -/

namespace Sys2Proof.Machine

/-- The packed descriptor: total_bits, exp_bits, mant_bits and bias at bits 7:0, 15:8, 23:16 and 47:32 (R67). -/
def Desc.packed (d : Desc) : Nat := d.bias <<< 32 ||| d.mant <<< 16 ||| d.exp <<< 8 ||| d.total

/-- PDESC (R67). -/
def execPdesc (p : Prec) (s : State) : Host.Outcome State Fault Refusal :=
  s.answer (.ok (.success (zext64 (s.rom.row p).packed)))

end Sys2Proof.Machine
end

