-- ==== Sys2Proof/Machine/Ulp.lean ====
section
/-! DEFINITION. The ULP distance and the comparator (42_ulp.md): ULPD, ULPDS, CMPU. -/

namespace Sys2Proof.Machine

/-- `UlpDiff(a, b, p, s)` as R100 transcribes it, its five steps in order. The first argument bounds the depth of the
recursion, which R100 says is at most two calls at each step; log 12. -/
def ulpSteps (d : Desc) (signed : Bool) : Nat → Nat → Nat → Int
  | 0, _, _ => 0
  | depth + 1, a, b =>
    if d.key a = d.key b then 0
    else if d.key b < d.key a then
      let r := ulpSteps d signed depth b a
      if signed then -r else r
    else if d.sign a ≠ d.sign b then
      ulpSteps d signed depth a d.signMask + ulpSteps d signed depth 0 b
    else |(a : Int) - b|

/-- `UlpDiff(a, b, p, s)` of R100: a swap, a split and a same-sign case are at most three levels deep. -/
def ulpDiff (d : Desc) (signed : Bool) (a b : Nat) : Int := ulpSteps d signed 4 a b

/-- ULPD's and ULPDS's response (R100). -/
def ulpd (d : Desc) (signed : Bool) (a b : Word) : Except Err Response := do
  let x ← typed d a
  let y ← typed d b
  if !d.isFinite x || !d.isFinite y then .error .nonfinite
  else
    let r := ulpDiff d signed x y
    pure (.success (zext64 r.natAbs) { neg := decide (r < 0) })

/-- CMPU's response (R103). -/
def cmpu (d : Desc) (a b c : Word) : Except Err Response := do
  let x ← typed d a
  let y ← typed d b
  let tol := tolerance c
  if tol < 0 then .error .negtol
  else if !d.isFinite x || !d.isFinite y then .error .nonfinite
  else
    let t := decide (ulpDiff d false x y ≤ tol)
    pure (.success (zext64 t.toNat) { true' := t })

/-- ULPD (R100, SGN = 0). -/
def execUlpd (p : Prec) (s : State) : Host.Outcome State Fault Refusal :=
  s.answer (ulpd (s.rom.row p) false s.req.a s.req.b)

/-- ULPDS (R100, SGN = 1). -/
def execUlpds (p : Prec) (s : State) : Host.Outcome State Fault Refusal :=
  s.answer (ulpd (s.rom.row p) true s.req.a s.req.b)

/-- CMPU (R103). -/
def execCmpu (p : Prec) (s : State) : Host.Outcome State Fault Refusal :=
  s.answer (cmpu (s.rom.row p) s.req.a s.req.b s.req.c)

end Sys2Proof.Machine
end

