-- ==== Sys2Proof/Machine/Dispatch.lean ====
section
/-! DEFINITION. Which meaning each command has: one arm per row of opcode_table.json. -/

namespace Sys2Proof.Machine

def exec (i : Instr) (s : State) : Host.Outcome State Fault Refusal :=
  match i with
  | .pdesc p => Sys2Proof.Machine.execPdesc p s
  | .ftob p => Sys2Proof.Machine.execFtob p s
  | .ftobs p => Sys2Proof.Machine.execFtobs p s
  | .btof p => Sys2Proof.Machine.execBtof p s
  | .btofs p => Sys2Proof.Machine.execBtofs p s
  | .cvtn p => Sys2Proof.Machine.execCvtn p s
  | .cvtw p => Sys2Proof.Machine.execCvtw p s
  | .ulpd p => Sys2Proof.Machine.execUlpd p s
  | .ulpds p => Sys2Proof.Machine.execUlpds p s
  | .cmpu p => Sys2Proof.Machine.execCmpu p s
  | .next p => Sys2Proof.Machine.execNext p s
  | .inspf p => Sys2Proof.Machine.execInspf p s
  | .inspb p => Sys2Proof.Machine.execInspb p s

end Sys2Proof.Machine
end

