-- ==== Sys2Proof/Machine/Channel.lean ====
section
/-! DEFINITION. The request and response channels (70_reset_and_hazards.md R169 to R177): what the outputs show at an
edge, which transfers happen, and what an edge does besides running a command. -/

namespace Sys2Proof.Machine

/-- Q holds fewer than QDEPTH entries (R175). The empty queue has room whatever QDEPTH is, since QDEPTH >= 1. -/
def State.hasRoom (s : State) : Bool :=
  match s.q with
  | [] => true
  | _ :: rest => decide (rest.length < Config.qDepthLess1)

/-- Output `req_ready`: 0 in reset and with a full Q, else free (R175). -/
def State.reqReady (s : State) : Bool := !s.inReset && s.hasRoom && !s.choice.stall

/-- Output `rsp_valid`: 0 in reset, with an empty Q, and before LATENCY edges have passed; else free until it is 1,
and then 1 until the transfer (R175). -/
def State.rspValid (s : State) : Bool :=
  !s.inReset && match s.q with
    | [] => false
    | e :: _ => e.wait == 0 && (s.offered || !s.choice.defer)

/-- What the response ports show while `rsp_valid` = 0, which the spec does not state: free values (log 4). -/
def freeResponse (edge : Nat) : Response where
  status := Config.freeRspWord edge 0
  res    := Config.freeRspWord edge 1
  irexp  := Config.freeRspWord edge 2
  irmant := Config.freeRspWord edge 3
  iexp   := Config.freeRspWord edge 4
  imnum  := Config.freeRspWord edge 5

/-- Outputs `rsp_status` to `rsp_imnum`: the head of Q while `rsp_valid` = 1 (R174). -/
def State.rspPorts (s : State) : Response :=
  match s.rspValid, s.q with
  | true, e :: _ => e.rsp
  | _, _ => freeResponse s.edge

/-- A request transfers at this edge (R173). -/
def State.reqTransfers (s : State) : Bool := s.reqValid && s.reqReady

/-- A response transfers at this edge (R173). -/
def State.rspTransfers (s : State) : Bool := s.rspValid && s.rspReady

/-- The requester has dropped or changed a request that it offered and that was not accepted: the first duty of R177
is broken. -/
def State.breaksDuty (s : State) : Bool :=
  match s.held with
  | none => false
  | some r => !(s.reqValid && decide (s.req = r))

/-- One edge less to wait (R175). -/
def Entry.age (e : Entry) : Entry := { e with wait := e.wait - 1 }

/-- The response side of an edge outside reset: the head of Q leaves if it transfers, the others come one edge nearer
to being offered, and an offer that was not taken is remembered (R173, R175). -/
def State.serve (s : State) : State :=
  s.setQueue ((if s.rspTransfers then s.q.tail else s.q).map Entry.age) (s.rspValid && !s.rspReady)

/-- What an edge with `rst` = 1 does: Q becomes empty, and nothing else changes (R170). -/
def State.flush (s : State) : State := s.setQueue [] false

/-- The error that a rejection by `Decode` raises (30_encoding.md R46). -/
def rejectError : Reject → Err
  | .reservedBits  => .illegal
  | .unassignedOp  => .illegal
  | .reservedPrec  => .illegal
  | .sgnNotAllowed => .illegal
  | .srcNotAllowed => .illegal
  | .notOneSource  => .usage

/-- A request transfer: appends `Exec(req_cmd, req_a, req_b, req_c)` to Q (R173), the error response of a word that
names no command included (30_encoding.md R53). -/
def State.accept (s : State) : Host.Outcome State Fault Refusal :=
  match decode s.req.cmd with
  | .ok i    => exec i s
  | .error r => raise (rejectError r) s

/-- `Exec(cmd, a, b, c)` of R173, as a function of the ROM and the request alone: what `accept` appends to an empty
queue. -/
def execResponse (rom : Rom) (r : Request) : Option Response :=
  match ({ State.reset with rom := rom, req := r }).accept with
  | .next t => t.q.getLast?.map Entry.rsp
  | _ => none

/-- What is driven and chosen past the script: the requester keeps offering a request it still owes (R177), offers no
other, and takes responses (log 5); the implementation's choices are free values (log 3, log 4). -/
def State.unscripted (s : State) : Drive where
  rst      := false
  reqValid := s.held.isSome
  req      := s.held.getD s.req
  rspReady := true
  choice   := ⟨Config.freeStall (s.edge + 1), Config.freeDefer (s.edge + 1), Config.freeLatencyLess1 (s.edge + 1)⟩

/-- The end of an edge: a request that was offered and not accepted is remembered (R177), and the next edge's inputs
come to the ports. -/
def State.endEdge (s : State) (accepted : Bool) : State :=
  let t := s.setHeld (if s.reqValid && !accepted then some s.req else none)
  match s.script with
  | d :: rest => (t.drive d).nextEdge rest
  | [] => (t.drive t.unscripted).nextEdge []

end Sys2Proof.Machine
end

