-- ==== Sys2Proof/Machine/Step.lean ====
section
/-! DEFINITION. One step: one rising edge of `clk` (70_reset_and_hazards.md R169 to R177). -/

namespace Sys2Proof.Machine

/-- One rising edge. A run whose requester breaks its first duty is refused (R177). In reset, Q is emptied (R170).
Otherwise the response side is served, and a request that transfers is answered at the tail of Q (R173); a request is
accepted against Q as it stood before the edge (R175). -/
def step (s : State) : Host.Outcome State Fault Refusal :=
  if s.breaksDuty then .refused .requestChanged
  else if s.inReset then .next (s.flush.endEdge false)
  else if s.reqTransfers then
    match s.serve.accept with
    | .next t    => .next (t.endEdge true)
    | .fault f   => .fault f
    | .refused r => .refused r
  else .next (s.serve.endEdge false)

/-- The state whose next step accepts the command word `w` (log 9): the word on `req_cmd` with `req_valid` = 1, reset
released, no stall, no other request owed, and room in Q. The operand words stay as they are. -/
def State.withFetchWord (s : State) (nbits w : Nat) : State :=
  { s with
    inReset  := false
    reqValid := true
    req      := { s.req with cmd := BitVec.ofNat 32 (w % 2 ^ nbits) }
    choice   := { s.choice with stall := false }
    held     := none
    q        := if s.hasRoom then s.q else s.q.take Config.qDepthLess1 }

end Sys2Proof.Machine
end

