-- ==== Sys2Proof/Machine/Assembler.lean ====
section
/-! DEFINITION. The requester's assembler and pseudo-commands (30_encoding.md R55 to R57). They are the requester's
work, not the block's: no step uses them. -/

namespace Sys2Proof.Machine

/-- The mnemonics of R41. -/
inductive Mnemonic where
  | pdesc | ftob | ftobs | btof | btofs | cvtn | cvtw | ulpd | ulpds | cmpu | next | inspf | inspb
  deriving DecidableEq, Repr

/-- The command of a mnemonic at a precision. -/
def Mnemonic.instr : Mnemonic → Prec → Instr
  | .pdesc => .pdesc
  | .ftob  => .ftob
  | .ftobs => .ftobs
  | .btof  => .btof
  | .btofs => .btofs
  | .cvtn  => .cvtn
  | .cvtw  => .cvtw
  | .ulpd  => .ulpd
  | .ulpds => .ulpds
  | .cmpu  => .cmpu
  | .next  => .next
  | .inspf => .inspf
  | .inspb => .inspb

/-- The precision of a mnemonic written without a suffix, for the four that have one (R56). -/
def Mnemonic.defaultPrec : Mnemonic → Option Prec
  | .ulpd | .ulpds | .cmpu | .next => some .D
  | .pdesc | .ftob | .ftobs | .btof | .btofs | .cvtn | .cvtw | .inspf | .inspb => none

/-- A literal of R55: an optional minus sign and an unsigned number. -/
structure Literal where
  minus  : Bool
  number : Nat
  deriving DecidableEq, Repr

/-- A request in assembler syntax: mnemonic, suffix if any, operands (R55). -/
structure AsmRequest where
  mnemonic : Mnemonic
  suffix   : Option Prec
  operands : List Literal
  deriving DecidableEq, Repr

/-- An assembler error, "not an encoding" (R55, R56). -/
inductive AsmError where
  /-- No mnemonic of R41. -/
  | unknownMnemonic
  /-- A suffix other than h, s, d. -/
  | unknownSuffix
  /-- No suffix on a mnemonic that needs one (R56). -/
  | missingSuffix
  /-- Not of the form `["-"] ("0x" hexdigits | decdigits)`. -/
  | malformedLiteral
  /-- A minus sign where R55 allows none. -/
  | minusNotAllowed
  /-- A literal that does not fit in 64 bits. -/
  | literalTooWide
  /-- More than three operands; log 14. -/
  | tooManyOperands
  deriving DecidableEq, Repr

/-- The word of a literal, a negative one as `tc_64` of its value (R55). -/
def Literal.word (minusAllowed : Bool) (l : Literal) : Except AsmError Word :=
  if l.minus then
    if !minusAllowed then .error .minusNotAllowed
    else if l.number ≤ 2 ^ 63 then .ok (tc64 (-(l.number : Int)))
    else .error .literalTooWide
  else if l.number < 2 ^ 64 then .ok (zext64 l.number)
  else .error .literalTooWide

/-- Assembles a request: operands fill A, B, C in order, a missing operand is 0, a minus sign may stand only for C of
CMPU and A of BTOFS, and the suffix defaults by R56 (R55). -/
def assemble (r : AsmRequest) : Except AsmError Request := do
  let p ← match r.suffix, r.mnemonic.defaultPrec with
    | some p, _ => .ok p
    | none, some p => .ok p
    | none, none => .error .missingSuffix
  let zero : Literal := ⟨false, 0⟩
  let (la, lb, lc) ← match r.operands with
    | [] => .ok (zero, zero, zero)
    | [x] => .ok (x, zero, zero)
    | [x, y] => .ok (x, y, zero)
    | [x, y, z] => .ok (x, y, z)
    | _ => .error .tooManyOperands
  let a ← la.word (r.mnemonic == .btofs)
  let b ← lb.word false
  let c ← lc.word (r.mnemonic == .cmpu)
  pure ⟨encode (r.mnemonic.instr p), a, b, c⟩

/-- The spellings of R41's mnemonics. -/
def mnemonicNames : List (List Char × Mnemonic) :=
  [(['P','D','E','S','C'], .pdesc), (['F','T','O','B'], .ftob), (['F','T','O','B','S'], .ftobs),
   (['B','T','O','F'], .btof), (['B','T','O','F','S'], .btofs), (['C','V','T','N'], .cvtn),
   (['C','V','T','W'], .cvtw), (['U','L','P','D'], .ulpd), (['U','L','P','D','S'], .ulpds),
   (['C','M','P','U'], .cmpu), (['N','E','X','T'], .next), (['I','N','S','P','F'], .inspf),
   (['I','N','S','P','B'], .inspb)]

/-- The suffixes of R42. -/
def suffixNames : List (List Char × Prec) := [(['h'], .H), (['s'], .S), (['d'], .D)]

/-- The value of a digit in base 16, in either case. -/
def digitValue (c : Char) : Option Nat :=
  if '0' ≤ c ∧ c ≤ '9' then some (c.toNat - '0'.toNat)
  else if 'a' ≤ c ∧ c ≤ 'f' then some (c.toNat - 'a'.toNat + 10)
  else if 'A' ≤ c ∧ c ≤ 'F' then some (c.toNat - 'A'.toNat + 10)
  else none

/-- The number that digits of a base spell, after a prefix of value `acc`. -/
def digitsValue (base acc : Nat) : List Char → Option Nat
  | [] => some acc
  | c :: cs => match digitValue c with
    | some v => if v < base then digitsValue base (acc * base + v) cs else none
    | none => none

/-- `"0x" hexdigits | decdigits`, at least one digit (R55). -/
def parseNumber : List Char → Option Nat
  | '0' :: 'x' :: c :: cs => digitsValue 16 0 (c :: cs)
  | c :: cs => digitsValue 10 0 (c :: cs)
  | [] => none

/-- `operand := [ "-" ] ( "0x" hexdigits | decdigits )` (R55). -/
def parseLiteral : List Char → Except AsmError Literal
  | '-' :: cs => match parseNumber cs with
    | some n => .ok ⟨true, n⟩
    | none => .error .malformedLiteral
  | cs => match parseNumber cs with
    | some n => .ok ⟨false, n⟩
    | none => .error .malformedLiteral

/-- The pieces of a text between the occurrences of a character. -/
def splitAtChar (sep : Char) : List Char → List (List Char)
  | [] => [[]]
  | c :: cs =>
    if c = sep then [] :: splitAtChar sep cs
    else match splitAtChar sep cs with
      | piece :: rest => (c :: piece) :: rest
      | [] => [[c]]

/-- The operands of a request: nothing, or literals between commas. -/
def parseOperands (cs : List Char) : Except AsmError (List Literal) :=
  match cs with
  | [] => .ok []
  | _ => (splitAtChar ',' cs).mapM parseLiteral

/-- `request := mnemonic [ "." prec ] [ operand { "," operand } ]` (R55). R55 is silent on spaces. DESIGN CHOICE,
log 14: the text up to its first space is the mnemonic with its suffix, and spaces after that are dropped, inside a literal
too. So a text that begins with a space names no mnemonic (`unknownMnemonic`), and a suffix whose dot follows a space is
read as part of the first operand (`malformedLiteral`). -/
def parseRequest (text : List Char) : Except AsmError AsmRequest := do
  let head := text.takeWhile (· != ' ')
  let tail := (text.dropWhile (· != ' ')).filter (· != ' ')
  let name := head.takeWhile (· != '.')
  let m ← match mnemonicNames.lookup name with
    | some m => .ok m
    | none => .error .unknownMnemonic
  let suffix ← match head.dropWhile (· != '.') with
    | [] => .ok none
    | _ :: cs => match suffixNames.lookup cs with
      | some p => .ok (some p)
      | none => .error .unknownSuffix
  let operands ← parseOperands tail
  pure ⟨m, suffix, operands⟩

/-- The pseudo-commands of R57. -/
inductive Pseudo where
  | ftobn
  | btofw
  | inspn
  deriving DecidableEq, Repr

/-- The two commands a pseudo-command expands to (R57). -/
def Pseudo.expansion : Pseudo → Prec → Instr × Instr
  | .ftobn, p => (.cvtn p, .ftob p)
  | .btofw, p => (.btof p, .cvtw p)
  | .inspn, p => (.cvtn p, .inspf p)

/-- The result of a pseudo-command: the second request's A is the first response's RES, and a first response with
ERR not 0 is the result (R57). -/
def Pseudo.run (ps : Pseudo) (rom : Rom) (p : Prec) (a : Word) : Option Response := do
  let (first, second) := ps.expansion p
  let r ← execResponse rom ⟨encode first, a, 0, 0⟩
  if r.flags.err ≠ 0 then some r
  else execResponse rom ⟨encode second, r.res, 0, 0⟩

end Sys2Proof.Machine
end

