-- ==== Sys2Proof/Machine/Wrapper.lean ====
section
/-! DEFINITION. The byte layout of one word under either value of WRAPPER_BYTE_ORDER (00_scope.md R4, 20_memory.md
R32). The wrapper is a platform's and lies outside the block: nothing here is used by a step. -/

namespace Sys2Proof.Machine

/-- The n low bytes of an integer, least significant first. -/
def littleBytes : Nat → Nat → List (BitVec 8)
  | 0, _ => []
  | n + 1, v => BitVec.ofNat 8 v :: littleBytes n (v / 256)

/-- The integer of a list of bytes, least significant first. -/
def ofLittleBytes : List (BitVec 8) → Nat
  | [] => 0
  | b :: rest => b.toNat + 256 * ofLittleBytes rest

/-- The n bytes of a word, lowest address first (R32: the choice "changes where the wrapper puts bytes"). -/
def wrapperBytes (o : ByteOrder) (n v : Nat) : List (BitVec 8) :=
  match o with
  | .little => littleBytes n v
  | .big    => (littleBytes n v).reverse

/-- The word that a wrapper reads from bytes, lowest address first. -/
def ofWrapperBytes (o : ByteOrder) (bs : List (BitVec 8)) : Nat :=
  match o with
  | .little => ofLittleBytes bs
  | .big    => ofLittleBytes bs.reverse

/-- The eight bytes of a word in this platform's wrapper. -/
def platformBytes (w : Word) : List (BitVec 8) := wrapperBytes Config.wrapperByteOrder 8 w.toNat

end Sys2Proof.Machine
end

