-- ==== Sys2Proof/Safety.lean ====
section
/-! DEFINITION. The terms in which claims about FPCODEC are made: the shape of a response, the invariant of a state, and
runs, in which the requester may drive anything at each edge (70_reset_and_hazards.md R180). -/

namespace Sys2Proof.Machine

/-- A response of the shape the spec gives every response: an error code of R150, OK exactly when there is no error,
reserved bits 0 (10_state.md R13, R14); an error response with the code and nothing else (60_exceptions.md R151);
inspector words and flags only in an inspector view, with I_SIGN = I_NEG (R13, 44_inspector.md R132); NEG and TRUE
never with one. -/
def Response.legal (r : Response) : Bool :=
  let f := r.flags
  decide (f.err ≤ 5) && (f.ok == (f.err == 0)) && (f.pack == r.status)
    && (f.err == 0 || r == { Response.zero with status := zext64 f.err })
    && (f.iValid || (r.irexp == 0 && r.irmant == 0 && r.iexp == 0 && r.imnum == 0
          && !f.iSign && !f.iNeg && !f.iInf && !f.iNan && !f.iSub))
    && (f.iSign == f.iNeg)
    && (!f.iValid || (!f.neg && !f.true')) && !(f.neg && f.true')

/-- What every run keeps: the ROM is the constant table (R60), Q holds at most QDEPTH entries (R10), each a response of
the spec's shape, and an offer that was not taken is still the head of Q, its LATENCY over (R175). -/
def Invariant (s : State) : Prop :=
  s.rom = Rom.table ∧ s.q.length ≤ Config.qDepth ∧ (∀ e ∈ s.q, e.rsp.legal = true) ∧
    (s.offered = true → ∃ e rest, s.q = e :: rest ∧ e.wait = 0)

/-- One edge, after which the requester drives, and the implementation chooses, whatever `d` says (R180). -/
def Edge (s t : State) : Prop := ∃ u d, step s = .next u ∧ t = u.drive d

/-- The request accepted at an edge, if any (R173). -/
def State.accepted (s : State) : List Request := if s.reqTransfers then [s.req] else []

/-- The response delivered at an edge, if any (R173). -/
def State.delivered (s : State) : List Response :=
  if s.rspTransfers then s.q.head?.toList.map Entry.rsp else []

/-- A run of edges outside reset from `s` to `t`, with the requests accepted and the responses delivered on the way, in
their order. -/
inductive Run : State → List Request → List Response → State → Prop where
  | refl (s : State) : Run s [] [] s
  | edge {s t u : State} {reqs : List Request} {rsps : List Response} :
      s.inReset = false → Edge s t → Run t reqs rsps u → Run s (s.accepted ++ reqs) (s.delivered ++ rsps) u

/-- An endless run, edge after edge. -/
def Endless (r : Nat → State) : Prop := ∀ n, Edge (r n) (r (n + 1))

/-- The responses delivered at the k edges from the n-th on. -/
def deliveredFrom (r : Nat → State) (n : Nat) : Nat → List Response
  | 0 => []
  | k + 1 => deliveredFrom r n k ++ (r (n + k)).delivered

/-- The fairness assumption of R178, the only one, under R178's own premises (no reset, `rsp_ready` = 1 at infinitely
many edges): a waiting response is eventually offered, and if Q has room at infinitely many edges then `req_ready` = 1
at infinitely many edges. Log 19. -/
def Fair (r : Nat → State) : Prop :=
  (∀ n, (r n).inReset = false) → (∀ n, ∃ m, n ≤ m ∧ (r m).rspReady = true) →
    (∀ n, (r n).q ≠ [] → ∃ m, n ≤ m ∧ (r m).rspValid = true) ∧
    ((∀ n, ∃ m, n ≤ m ∧ (r m).q.length < Config.qDepth) → ∀ n, ∃ m, n ≤ m ∧ (r m).reqReady = true)

/-- RES of the successful response to a command on operands A, B, C; none if it is an error. -/
def resultOf (i : Instr) (a b c : Word) : Option Word :=
  match execResponse Rom.table ⟨encode i, a, b, c⟩ with
  | some r => if r.flags.ok then some r.res else none
  | none => none

/-- `n` is `RoundHalfEven(r)`: "the integer nearest the rational r; when r lies exactly halfway between two integers,
the even one" (41_codec.md R84). -/
def RoundsHalfEvenTo (r : ℚ) (n : ℕ) : Prop :=
  2 * |r - n| ≤ 1 ∧ (2 * |r - n| = 1 → Even n)

/-- The error that a command reports, the first that applies in the order of R152: RANGE on A, RANGE on B, NEGTOL,
NONFINITE (R150; the operands' forms are R51's). -/
def expectedError (i : Instr) (a b c : Word) : Option Err :=
  let wide (p : Prec) (w : Word) : Bool := decide (2 ^ (Rom.table.row p).total ≤ w.toNat)
  let nonfinite (p : Prec) (w : Word) : Bool := !(Rom.table.row p).isFinite w.toNat
  match i with
  | .pdesc _ | .cvtn _ => none
  | .ftob p | .ftobs p | .btof p | .cvtw p | .inspf p | .inspb p => if wide p a then some .range else none
  | .btofs p =>
    if a.toInt < -2 ^ ((Rom.table.row p).total - 1) ∨ 2 ^ ((Rom.table.row p).total - 1) ≤ a.toInt
    then some .range else none
  | .ulpd p | .ulpds p =>
    if wide p a then some .range else if wide p b then some .range
    else if nonfinite p a || nonfinite p b then some .nonfinite else none
  | .cmpu p =>
    if wide p a then some .range else if wide p b then some .range
    else if c.toInt < 0 then some .negtol
    else if nonfinite p a || nonfinite p b then some .nonfinite else none
  | .next p => if wide p a then some .range else if wide p b then some .range else none

end Sys2Proof.Machine
end

