-- ==== Sys2Proof/Certificates/Slice0/Obligations.lean ====
section
/-! DEFINITION. The statements for the provers, in the order of the spec's files. -/

open Sys2Proof Sys2Proof.Machine

/-! ### Encoding (30_encoding.md) -/

/-- Decoding an encoded command gives it back, for every command. -/
def Obligations.DecodeInvertsEncode : Prop :=
  ∀ i : Instr, decode (encode i) = .ok i

/-- Words written out from R40, R41 and the "Encoding" lines of the command rules decode to their commands. -/
def Obligations.WrittenWordsDecode : Prop :=
  decode 0b00000000000000000000000100000001 = .ok (.pdesc .S) ∧
  decode 0b00000000000000000000001000010011 = .ok (.btofs .D) ∧
  decode 0b00000000000000000000000000010100 = .ok (.cvtn .H) ∧
  decode 0b00000000000000000000010000100000 = .ok (.ulpds .H) ∧
  decode 0b00000000000000000000001000100001 = .ok (.cmpu .D) ∧
  decode 0b00000000000000000000000100110000 = .ok (.next .S) ∧
  decode 0b00000000000000000000100001000000 = .ok (.inspf .H) ∧
  decode 0b00000000000000000001001001000000 = .ok (.inspb .D)

/-- R46: the checks of `Decode`, in their order, the row and precision that a legal word selects, the error that each
failing check raises, and the command that runs with the precision decoded. -/
def Obligations.DecodeChecksInOrder : Prop :=
  (∀ w : CmdWord,
    let n := w.toNat
    let op := n % 256
    let pr := n / 256 % 4
    let sgn := n / 1024 % 2
    let src := n / 2048 % 4
    if n / 8192 ≠ 0 then decode w = .error .reservedBits
    else if op ∉ [0x01, 0x10, 0x11, 0x12, 0x13, 0x14, 0x15, 0x20, 0x21, 0x30, 0x40] then
      decode w = .error .unassignedOp
    else if pr = 3 then decode w = .error .reservedPrec
    else if sgn = 1 ∧ op ≠ 0x20 then decode w = .error .sgnNotAllowed
    else if src ≠ 0 ∧ op ≠ 0x40 then decode w = .error .srcNotAllowed
    else if op = 0x40 ∧ (src = 0 ∨ src = 3) then decode w = .error .notOneSource
    else ∃ row ∈ opRows, ∃ p : Prec, row.op.toNat = op ∧ row.sgn.toNat = sgn ∧ row.src.toNat = src ∧
      p.code = pr ∧ decode w = .ok (row.make p)) ∧
  (∀ (s : State) (r : Reject), decode s.req.cmd = .error r →
    s.accept = raise (if r = .notOneSource then .usage else .illegal) s) ∧
  ∀ (s : State) (i : Instr), decode s.req.cmd = .ok i → s.accept = exec i s

/-- R53: exactly 39 words are legal, 6 give USAGE, every other gives ILLEGAL, and a word that is not legal produces the
error response and nothing else. -/
def Obligations.ExactlyThirtyNineLegalWords : Prop :=
  (∀ (w : CmdWord) (i : Instr), decode w = .ok i ↔ w = encode i) ∧
  legalCommands.length = 39 ∧ legalCommands.Nodup ∧ (∀ i, i ∈ legalCommands) ∧
  (∀ w : CmdWord, decode w = .error .notOneSource ↔ w ∈ [0x0040, 0x0140, 0x0240, 0x1840, 0x1940, 0x1A40]) ∧
  ∀ (s : State) (r : Reject), decode s.req.cmd = .error r →
    s.accept = .next (s.push ⟨if r = .notOneSource then 4 else 1, 0, 0, 0, 0, 0⟩)

/-- R56: without a suffix the four mnemonics with a default mean their `.d` form, and every other mnemonic is an error.
Beside it, of R55: what the assembler emits is the legal command of the mnemonic at the precision written. -/
def Obligations.AssemblerEmitsTheCommand : Prop :=
  ∀ r : AsmRequest,
    (∀ q, assemble r = .ok q → ∃ p, decode q.cmd = .ok (r.mnemonic.instr p) ∧
      (r.suffix = some p ∨ r.suffix = none ∧ p = .D)) ∧
    (r.mnemonic ∈ [.ulpd, .ulpds, .cmpu, .next] →
      assemble { r with suffix := none } = assemble { r with suffix := some .D }) ∧
    (r.suffix = none → r.mnemonic ∉ [.ulpd, .ulpds, .cmpu, .next] → assemble r = .error .missingSuffix)

/-- R57: each pseudo-command is two requests, the second on the first's RES, or the first response if that is an
error; at p = D each equals its plain command. -/
def Obligations.PseudoCommandsExpand : Prop :=
  (∀ (ps : Pseudo) (rom : Rom) (p : Prec) (a : Word), ∃ x, execResponse rom ⟨encode (ps.expansion p).1, a, 0, 0⟩ = some x ∧
    ps.run rom p a = if x.flags.err ≠ 0 then some x
      else execResponse rom ⟨encode (ps.expansion p).2, x.res, 0, 0⟩) ∧
  (∀ p, Pseudo.expansion .ftobn p = (.cvtn p, .ftob p) ∧ Pseudo.expansion .btofw p = (.btof p, .cvtw p) ∧
    Pseudo.expansion .inspn p = (.cvtn p, .inspf p)) ∧
  ∀ a : Word, Pseudo.run .ftobn Rom.table .D a = execResponse Rom.table ⟨encode (.ftob .D), a, 0, 0⟩ ∧
    Pseudo.run .inspn Rom.table .D a = execResponse Rom.table ⟨encode (.inspf .D), a, 0, 0⟩ ∧
    Pseudo.run .btofw Rom.table .D a = execResponse Rom.table ⟨encode (.btof .D), a, 0, 0⟩

/-! ### State words (10_state.md) and the wrapper (20_memory.md) -/

/-- R13: a STATUS word holds each field at its bits, and nothing at bits 7 and 63:14. -/
def Obligations.StatusHoldsItsFields : Prop :=
  ∀ f : StatusFields, f.err < 16 → StatusFields.unpack f.pack = f ∧ f.pack.toNat < 2 ^ 14 ∧ bit f.pack.toNat 7 = 0

/-- R14: every response is determined and of the spec's shape, reserved STATUS bits 0; every word and every field of
STATUS that a command does not write is 0 (R13 says which command writes which). -/
def Obligations.EveryResponseIsLegal : Prop :=
  ∀ q : Request, ∃ x, execResponse Rom.table q = some x ∧ x.legal = true ∧
    ((∀ p, decode q.cmd ≠ .ok (.inspf p) ∧ decode q.cmd ≠ .ok (.inspb p)) →
      x.irexp = 0 ∧ x.irmant = 0 ∧ x.iexp = 0 ∧ x.imnum = 0 ∧ bits x.status.toNat 63 8 = 0) ∧
    ((∀ p, decode q.cmd ≠ .ok (.ulpds p)) → x.flags.neg = false) ∧
    ((∀ p, decode q.cmd ≠ .ok (.cmpu p)) → x.flags.true' = false)

/-- R19: the ROM is the table and an edge in reset does not change it; Q is empty after such an edge and in State.reset;
in_reset is what the reset input is driven to; and the two outputs are 0 where R19 says so. -/
def Obligations.ResetLeavesTheStatedValues : Prop :=
  State.reset.rom = Rom.table ∧ State.reset.q = [] ∧
  (∀ s u : State, s.inReset = true → step s = .next u → u.q = [] ∧ u.rom = s.rom) ∧
  (∀ (s : State) (d : Drive), (s.drive d).inReset = d.rst) ∧
  (∀ s : State, s.inReset = true → s.reqReady = false ∧ s.rspValid = false) ∧
  (∀ s : State, s.q = [] → s.rspValid = false)

/-- The model's own byte layout of one word in a bus wrapper (DESIGN CHOICE, log 15): little puts byte i of the word at
address i, big puts it at the other end, and either order gives back the word it laid out. The spec names the parameter
WRAPPER_BYTE_ORDER and puts the wrapper outside the block; it describes no wrapper. -/
def Obligations.WrapperKeepsTheWord : Prop :=
  ∀ (o : ByteOrder) (n v : Nat), v < 256 ^ n →
    (wrapperBytes o n v).length = n ∧ ofWrapperBytes o (wrapperBytes o n v) = v ∧
    ∀ i < n, (wrapperBytes .little n v)[i]? = some (BitVec.ofNat 8 (v / 256 ^ i)) ∧
      (wrapperBytes .big n v)[n - 1 - i]? = some (BitVec.ofNat 8 (v / 256 ^ i))

/-! ### Formats (40_precision.md) -/

/-- R60, R61: the descriptor table, its bias formula and its invariant. -/
def Obligations.DescriptorTable : Prop :=
  Rom.table.row .H = ⟨16, 5, 10, 15⟩ ∧ Rom.table.row .S = ⟨32, 8, 23, 127⟩ ∧ Rom.table.row .D = ⟨64, 11, 52, 1023⟩ ∧
  ∀ p, (Rom.table.row p).total = 1 + (Rom.table.row p).exp + (Rom.table.row p).mant ∧
    (Rom.table.row p).bias = 2 ^ ((Rom.table.row p).exp - 1) - 1

/-- R62: an encoding is its sign, exponent and mantissa fields, from most to least significant. -/
def Obligations.FieldsComposeTheEncoding : Prop :=
  ∀ (p : Prec) (x : Nat), (Rom.table.row p).Encoding x →
    let d := Rom.table.row p
    x = d.sign x * 2 ^ (d.total - 1) + d.rexp x * 2 ^ d.mant + d.rmant x ∧
    d.sign x < 2 ∧ d.rexp x < 2 ^ d.exp ∧ d.rmant x < 2 ^ d.mant

/-- R64: the magnitude, the key, and that keys order the values of encodings that are not NaN. -/
def Obligations.KeysOrderTheValues : Prop :=
  ∀ (p : Prec) (x y : Nat), (Rom.table.row p).Encoding x → (Rom.table.row p).Encoding y →
    let d := Rom.table.row p
    d.mag x = x % 2 ^ (d.total - 1) ∧ d.key x = (if d.sign x = 1 then -(d.mag x : Int) else d.mag x) ∧
    (d.isNan x = false → d.isNan y = false →
      (d.value x = d.value y ↔ d.key x = d.key y) ∧ (Value.lt (d.value x) (d.value y) ↔ d.key x < d.key y))

/-- R67: PDESC's fields, whatever the operand words hold. -/
def Obligations.PdescPacksTheDescriptor : Prop :=
  ∀ (s : State) (p : Prec), s.rom = Rom.table →
    let d := Rom.table.row p
    encode (.pdesc p) = BitVec.ofNat 32 (0x001 ||| p.code <<< 8) ∧
    ∃ w : Word, exec (.pdesc p) s = .next (s.push ⟨0x10, w, 0, 0, 0, 0⟩) ∧
      bits w.toNat 7 0 = d.total ∧ bits w.toNat 15 8 = d.exp ∧ bits w.toNat 23 16 = d.mant ∧
      bits w.toNat 47 32 = d.bias ∧ bits w.toNat 31 24 = 0 ∧ bits w.toNat 63 48 = 0

/-- R68: the named encodings of the spec's table. -/
def Obligations.NamedEncodings : Prop :=
  let h := Rom.table.row .H
  let s := Rom.table.row .S
  let d := Rom.table.row .D
  [h.signMask, h.maxFin, h.inf, h.qnan, h.one] = [0x8000, 0x7BFF, 0x7C00, 0x7E00, 0x3C00] ∧
  [s.signMask, s.maxFin, s.inf, s.qnan, s.one] = [0x80000000, 0x7F7FFFFF, 0x7F800000, 0x7FC00000, 0x3F800000] ∧
  [d.signMask, d.maxFin, d.inf, d.qnan, d.one] = [0x8000000000000000, 0x7FEFFFFFFFFFFFFF, 0x7FF0000000000000,
    0x7FF8000000000000, 0x3FF0000000000000] ∧
  ∀ p, (Rom.table.row p).minSub = 1 ∧ (Rom.table.row p).minNorm = 2 ^ (Rom.table.row p).mant

/-! ### The codec (41_codec.md) -/

/-- R80: FTOB returns the pattern of a typed operand, and raises RANGE for every other word. -/
def Obligations.FtobReturnsThePattern : Prop :=
  ∀ (s : State) (p : Prec), s.rom = Rom.table →
    let t := (Rom.table.row p).total
    encode (.ftob p) = BitVec.ofNat 32 (0x010 ||| p.code <<< 8) ∧
    (s.req.a.toNat < 2 ^ t → exec (.ftob p) s = .next (s.push ⟨0x10, s.req.a, 0, 0, 0, 0⟩)) ∧
    (2 ^ t ≤ s.req.a.toNat → exec (.ftob p) s = .next (s.push ⟨5, 0, 0, 0, 0, 0⟩))

/-- R81: FTOBS returns the pattern read as a two's-complement integer of t(p) bits, as a 64-bit word. -/
def Obligations.FtobsReturnsTheSignedView : Prop :=
  ∀ (s : State) (p : Prec), s.rom = Rom.table →
    let t := (Rom.table.row p).total
    encode (.ftobs p) = BitVec.ofNat 32 (0x011 ||| p.code <<< 8) ∧
    (s.req.a.toNat < 2 ^ t → ∃ w : Word, exec (.ftobs p) s = .next (s.push ⟨0x10, w, 0, 0, 0, 0⟩) ∧
      w.toInt = if s.req.a.toNat < 2 ^ (t - 1) then (s.req.a.toNat : Int) else s.req.a.toNat - 2 ^ t) ∧
    (2 ^ t ≤ s.req.a.toNat → exec (.ftobs p) s = .next (s.push ⟨5, 0, 0, 0, 0, 0⟩))

/-- R82: BTOF returns every pattern in range, and raises RANGE when A >= 2^t(p). -/
def Obligations.BtofReturnsTheEncoding : Prop :=
  ∀ (s : State) (p : Prec), s.rom = Rom.table →
    let t := (Rom.table.row p).total
    encode (.btof p) = BitVec.ofNat 32 (0x012 ||| p.code <<< 8) ∧
    (s.req.a.toNat < 2 ^ t → exec (.btof p) s = .next (s.push ⟨0x10, s.req.a, 0, 0, 0, 0⟩)) ∧
    (2 ^ t ≤ s.req.a.toNat → exec (.btof p) s = .next (s.push ⟨5, 0, 0, 0, 0, 0⟩))

/-- R83: BTOFS returns the encoding of an integer of the signed range, with bits above t(p) clear, and raises RANGE
outside that range. -/
def Obligations.BtofsReturnsTheEncoding : Prop :=
  ∀ (s : State) (p : Prec), s.rom = Rom.table →
    let t := (Rom.table.row p).total
    encode (.btofs p) = BitVec.ofNat 32 (0x013 ||| p.code <<< 8) ∧
    (-2 ^ (t - 1) ≤ s.req.a.toInt → s.req.a.toInt < 2 ^ (t - 1) →
      ∃ w : Word, exec (.btofs p) s = .next (s.push ⟨0x10, w, 0, 0, 0, 0⟩) ∧
        (w.toNat : Int) = s.req.a.toInt % 2 ^ t) ∧
    (s.req.a.toInt < -2 ^ (t - 1) ∨ 2 ^ (t - 1) ≤ s.req.a.toInt →
      exec (.btofs p) s = .next (s.push ⟨5, 0, 0, 0, 0, 0⟩))

/-- R84 (with R85 for NaNs): CVTN on every word. The finite case is the rule's own, over the rationals: E, q and N are
those it names, and `mg` is the magnitude of the result. -/
def Obligations.CvtnFollowsItsRule : Prop :=
  ∀ (s : State) (p : Prec), s.rom = Rom.table →
    let d := Rom.table.row p
    let b := Rom.table.row .D
    let a := s.req.a.toNat
    let v := |b.finiteValue a|
    encode (.cvtn p) = BitVec.ofNat 32 (0x014 ||| p.code <<< 8) ∧
    ∃ w : Word, exec (.cvtn p) s = .next (s.push ⟨0x10, w, 0, 0, 0, 0⟩) ∧
      (p = .D → w = s.req.a) ∧
      (p ≠ .D →
        (b.isNan a = true → w.toNat = b.sign a * 2 ^ (d.total - 1) + (2 ^ d.exp - 1) * 2 ^ d.mant +
          (b.rmant a / 2 ^ (52 - d.mant) ||| 2 ^ (d.mant - 1))) ∧
        (b.isInf a = true → w.toNat = b.sign a * 2 ^ (d.total - 1) + (2 ^ d.exp - 1) * 2 ^ d.mant) ∧
        (b.isZero a = true → w.toNat = b.sign a * 2 ^ (d.total - 1)) ∧
        (b.isFinite a = true → b.isZero a = false →
          ∃ (e q : ℤ) (n mg : ℕ), (2 : ℚ) ^ e ≤ v ∧ v < (2 : ℚ) ^ (e + 1) ∧ q = max e (1 - d.bias) - d.mant ∧
            RoundsHalfEvenTo (v / (2 : ℚ) ^ q) n ∧ w.toNat = b.sign a * 2 ^ (d.total - 1) + mg ∧
            ((2 : ℚ) ^ (d.bias + 1) ≤ n * (2 : ℚ) ^ q → mg = (2 ^ d.exp - 1) * 2 ^ d.mant) ∧
            (n * (2 : ℚ) ^ q < (2 : ℚ) ^ (d.bias + 1) →
              (n < 2 ^ d.mant → mg = n) ∧
              (n = 2 ^ (d.mant + 1) → (mg : ℤ) = (q + 1 + d.mant + d.bias) * 2 ^ d.mant) ∧
              (2 ^ d.mant ≤ n → n ≠ 2 ^ (d.mant + 1) →
                (mg : ℤ) = (q + d.mant + d.bias) * 2 ^ d.mant + (n - 2 ^ d.mant)))))

/-- CVTN is correctly rounded: below the overflow midpoint the result is finite, no finite encoding of the target is
nearer to the operand's value, and of two equally near the one with the even pattern is taken; at and beyond the midpoint
it is infinity; the sign is the operand's (41_codec.md R84, its corner cases). -/
def Obligations.CvtnRoundsToNearest : Prop :=
  ∀ (s : State) (p : Prec), s.rom = Rom.table → p ≠ .D →
    let d := Rom.table.row p
    let b := Rom.table.row .D
    let a := s.req.a.toNat
    let v := b.finiteValue a
    let midpoint : ℚ := (2 - (1 / 2) ^ (d.mant + 1)) * 2 ^ d.bias
    b.isFinite a = true →
    ∃ w : Word, exec (.cvtn p) s = .next (s.push ⟨0x10, w, 0, 0, 0, 0⟩) ∧ d.Encoding w.toNat ∧
      d.sign w.toNat = b.sign a ∧
      (|v| < midpoint → d.isFinite w.toNat = true ∧
        ∀ y, d.Encoding y → d.isFinite y = true →
          |d.finiteValue w.toNat - v| ≤ |d.finiteValue y - v| ∧
          (|d.finiteValue w.toNat - v| = |d.finiteValue y - v| → d.finiteValue y ≠ d.finiteValue w.toNat →
            w.toNat % 2 = 0)) ∧
      (midpoint ≤ |v| → d.isInf w.toNat = true)

/-- R85: the NaN that CVTN makes of a NaN is a quiet NaN of p with the operand's sign and top payload bits. -/
def Obligations.CvtnMakesQuietNans : Prop :=
  ∀ (s : State) (p : Prec), s.rom = Rom.table → p ≠ .D →
    let d := Rom.table.row p
    let b := Rom.table.row .D
    let a := s.req.a.toNat
    b.isNan a = true →
    ∃ w : Word, exec (.cvtn p) s = .next (s.push ⟨0x10, w, 0, 0, 0, 0⟩) ∧ d.Encoding w.toNat ∧
      d.isNan w.toNat = true ∧ d.quiet w.toNat = w.toNat ∧ d.sign w.toNat = b.sign a ∧
      d.rmant w.toNat = b.rmant a / 2 ^ (52 - d.mant) ||| 2 ^ (d.mant - 1)

/-- R86: CVTW keeps the sign and, exactly, the value of every finite operand; an infinity stays one; a NaN keeps its
payload, left-aligned, and becomes quiet; at p = D the word is unchanged; RANGE for a word that is no encoding. -/
def Obligations.CvtwIsExact : Prop :=
  ∀ (s : State) (p : Prec), s.rom = Rom.table →
    let d := Rom.table.row p
    let b := Rom.table.row .D
    let a := s.req.a.toNat
    encode (.cvtw p) = BitVec.ofNat 32 (0x015 ||| p.code <<< 8) ∧
    (d.Encoding a → ∃ w : Word, exec (.cvtw p) s = .next (s.push ⟨0x10, w, 0, 0, 0, 0⟩) ∧
      b.sign w.toNat = d.sign a ∧ (p = .D → w = s.req.a) ∧
      (d.isFinite a = true → b.isFinite w.toNat = true ∧ b.finiteValue w.toNat = d.finiteValue a) ∧
      (d.isInf a = true → b.isInf w.toNat = true) ∧
      (p ≠ .D → d.isNan a = true → b.isNan w.toNat = true ∧
        b.rmant w.toNat = d.rmant a * 2 ^ (52 - d.mant) ||| 2 ^ 51)) ∧
    (2 ^ d.total ≤ a → exec (.cvtw p) s = .next (s.push ⟨5, 0, 0, 0, 0, 0⟩))

/-- Laws 1 to 3 of R87: the codec commands undo each other on every pattern, and CVTN.d and CVTW.d change nothing. -/
def Obligations.CodecRoundTrips : Prop :=
  (∀ (p : Prec) (x : Word), (Rom.table.row p).Encoding x.toNat →
    ((resultOf (.ftob p) x 0 0).bind fun y => resultOf (.btof p) y 0 0) = some x ∧
    ((resultOf (.btof p) x 0 0).bind fun y => resultOf (.ftob p) y 0 0) = some x ∧
    ((resultOf (.ftobs p) x 0 0).bind fun y => resultOf (.btofs p) y 0 0) = some x) ∧
  ∀ x : Word, resultOf (.cvtn .D) x 0 0 = some x ∧ resultOf (.cvtw .D) x 0 0 = some x

/-- Law 4 of R87: narrowing undoes widening on everything but signalling NaNs, which come back quiet. -/
def Obligations.NarrowingUndoesWidening : Prop :=
  ∀ (p : Prec) (x : Word), p ≠ .D → (Rom.table.row p).Encoding x.toNat →
    let d := Rom.table.row p
    ((resultOf (.cvtw p) x 0 0).bind fun y => resultOf (.cvtn p) y 0 0) =
      some (if d.isNan x.toNat then zext64 (d.quiet x.toNat) else x)

/-- Law 5 of R87: CVTN is monotonic in the order of keys, on operands that are not NaN. -/
def Obligations.NarrowingIsMonotonic : Prop :=
  ∀ (p : Prec) (a b : Word), (Rom.table.row .D).isNan a.toNat = false → (Rom.table.row .D).isNan b.toNat = false →
    (Rom.table.row .D).key a.toNat ≤ (Rom.table.row .D).key b.toNat →
    ∃ x y, resultOf (.cvtn p) a 0 0 = some x ∧ resultOf (.cvtn p) b 0 0 = some y ∧
      (Rom.table.row p).key x.toNat ≤ (Rom.table.row p).key y.toNat

/-! ### ULP distance and comparison (42_ulp.md) -/

/-- R101: the source's recursion equals the difference of keys on finite encodings. -/
def Obligations.UlpDiffClosedForm : Prop :=
  ∀ (p : Prec) (a b : Nat), (Rom.table.row p).Encoding a → (Rom.table.row p).Encoding b →
    (Rom.table.row p).isFinite a = true → (Rom.table.row p).isFinite b = true →
    let d := Rom.table.row p
    ulpDiff d false a b = |d.key b - d.key a| ∧ ulpDiff d true a b = d.key b - d.key a

/-- R100: ULPD and ULPDS return the distance, its magnitude in RES and, for ULPDS, its sign in NEG; RANGE on A, then
RANGE on B, then NONFINITE. The distance is in the closed form of R101. -/
def Obligations.UlpdReturnsTheDistance : Prop :=
  ∀ (s : State) (p : Prec), s.rom = Rom.table →
    let d := Rom.table.row p
    let a := s.req.a.toNat
    let b := s.req.b.toNat
    encode (.ulpd p) = BitVec.ofNat 32 (0x020 ||| p.code <<< 8) ∧
    encode (.ulpds p) = BitVec.ofNat 32 (0x420 ||| p.code <<< 8) ∧
    (d.Encoding a → d.Encoding b → d.isFinite a = true → d.isFinite b = true →
      ∃ w : Word, (w.toNat : Int) = |d.key b - d.key a| ∧
        exec (.ulpd p) s = .next (s.push ⟨0x10, w, 0, 0, 0, 0⟩) ∧
        exec (.ulpds p) s = .next (s.push ⟨if d.key b < d.key a then 0x30 else 0x10, w, 0, 0, 0, 0⟩)) ∧
    (2 ^ d.total ≤ a ∨ 2 ^ d.total ≤ b →
      exec (.ulpd p) s = .next (s.push ⟨5, 0, 0, 0, 0, 0⟩) ∧
      exec (.ulpds p) s = .next (s.push ⟨5, 0, 0, 0, 0, 0⟩)) ∧
    (d.Encoding a → d.Encoding b → d.isFinite a = false ∨ d.isFinite b = false →
      exec (.ulpd p) s = .next (s.push ⟨2, 0, 0, 0, 0, 0⟩) ∧
      exec (.ulpds p) s = .next (s.push ⟨2, 0, 0, 0, 0, 0⟩))

/-- R102, its six laws: symmetry, sign-flip antisymmetry, the zero case, the subnormal boundary, the metric laws, and
distance 1 to the neighbour that NEXT returns. -/
def Obligations.UlpDistanceLaws : Prop :=
  ∀ (p : Prec) (a b c : Nat), (Rom.table.row p).Encoding a → (Rom.table.row p).Encoding b →
    (Rom.table.row p).Encoding c → (Rom.table.row p).isFinite a = true →
    let d := Rom.table.row p
    (d.isFinite b = true →
      ulpDiff d false a b = ulpDiff d false b a ∧ ulpDiff d true a b = -ulpDiff d true b a ∧
      ulpDiff d true (a ^^^ d.signMask) (b ^^^ d.signMask) = -ulpDiff d true a b ∧
      (ulpDiff d false a b = 0 ↔ d.value a = d.value b) ∧
      (d.isFinite c = true → ulpDiff d false a c ≤ ulpDiff d false a b + ulpDiff d false b c)) ∧
    ulpDiff d false 0 d.signMask = 0 ∧ ulpDiff d false 0 d.minSub = 1 ∧
    (d.isNan b = false → d.value a ≠ d.value b → d.isFinite (nextToward d a b) = true →
      ulpDiff d false a (nextToward d a b) = 1)

/-- R103: CMPU compares the unsigned distance with the tolerance; RANGE on A, RANGE on B, NEGTOL, NONFINITE. The
distance is in the closed form of R101. -/
def Obligations.CmpuComparesWithTheTolerance : Prop :=
  ∀ (s : State) (p : Prec), s.rom = Rom.table →
    let d := Rom.table.row p
    let a := s.req.a.toNat
    let b := s.req.b.toNat
    let tol := s.req.c.toInt
    encode (.cmpu p) = BitVec.ofNat 32 (0x021 ||| p.code <<< 8) ∧
    (d.Encoding a → d.Encoding b → 0 ≤ tol → d.isFinite a = true → d.isFinite b = true →
      exec (.cmpu p) s = .next (s.push (if |d.key b - d.key a| ≤ tol then ⟨0x50, 1, 0, 0, 0, 0⟩
        else ⟨0x10, 0, 0, 0, 0, 0⟩))) ∧
    (2 ^ d.total ≤ a ∨ 2 ^ d.total ≤ b → exec (.cmpu p) s = .next (s.push ⟨5, 0, 0, 0, 0, 0⟩)) ∧
    (d.Encoding a → d.Encoding b → tol < 0 → exec (.cmpu p) s = .next (s.push ⟨3, 0, 0, 0, 0, 0⟩)) ∧
    (d.Encoding a → d.Encoding b → 0 ≤ tol → d.isFinite a = false ∨ d.isFinite b = false →
      exec (.cmpu p) s = .next (s.push ⟨2, 0, 0, 0, 0, 0⟩))

/-- R104: CMPU accepts the ULP distance itself as tolerance and rejects one less, for distances a tolerance can hold. -/
def Obligations.CompareUlpLaw : Prop :=
  ∀ (p : Prec) (a b : Word), (Rom.table.row p).Encoding a.toNat → (Rom.table.row p).Encoding b.toNat →
    (Rom.table.row p).isFinite a.toNat = true → (Rom.table.row p).isFinite b.toNat = true →
    ∃ w, resultOf (.ulpd p) a b 0 = some w ∧
      (w.toNat < 2 ^ 63 → resultOf (.cmpu p) a b w = some 1 ∧
        (0 < w.toNat → resultOf (.cmpu p) a b (w - 1) = some 0) ∧
        (w.toNat = 0 → resultOf (.cmpu p) a b (w - 1) = none))

/-! ### Adjacent values (43_nextafter.md) -/

/-- R120: NEXT's four rules, in order, and RANGE for a word that is no encoding. -/
def Obligations.NextFollowsItsRules : Prop :=
  ∀ (s : State) (p : Prec), s.rom = Rom.table →
    let d := Rom.table.row p
    let x := s.req.a.toNat
    let y := s.req.b.toNat
    encode (.next p) = BitVec.ofNat 32 (0x030 ||| p.code <<< 8) ∧
    (d.Encoding x → d.Encoding y → ∃ w : Word, exec (.next p) s = .next (s.push ⟨0x10, w, 0, 0, 0, 0⟩) ∧
      (d.isNan x = true → w.toNat = x ||| 2 ^ (d.mant - 1)) ∧
      (d.isNan x = false → d.isNan y = true → w.toNat = y ||| 2 ^ (d.mant - 1)) ∧
      (d.isNan x = false → d.isNan y = false →
        (d.key x = d.key y → w = s.req.b) ∧
        (d.key x ≠ d.key y → d.mag x = 0 → w.toNat = d.sign y * 2 ^ (d.total - 1) + 1) ∧
        (d.key x < d.key y → d.mag x ≠ 0 → (w.toNat : Int) = if d.sign x = 1 then (x : Int) - 1 else x + 1) ∧
        (d.key y < d.key x → d.mag x ≠ 0 → (w.toNat : Int) = if d.sign x = 1 then (x : Int) + 1 else x - 1))) ∧
    (2 ^ d.total ≤ x ∨ 2 ^ d.total ≤ y → exec (.next p) s = .next (s.push ⟨5, 0, 0, 0, 0, 0⟩))

/-- Items 1 to 3 of R121: for operands that are not NaN and differ in value, the result is an encoding that is not a
NaN, keeps the sign that item 1 gives, lies strictly beyond x toward y or at y, and nothing lies strictly between. -/
def Obligations.NextReturnsTheNeighbour : Prop :=
  ∀ (p : Prec) (x y : Nat), (Rom.table.row p).Encoding x → (Rom.table.row p).Encoding y →
    let d := Rom.table.row p
    let r := nextToward d x y
    d.isNan x = false → d.isNan y = false → d.key x ≠ d.key y →
    d.Encoding r ∧ d.isNan r = false ∧ d.sign r = (if d.mag x = 0 then d.sign y else d.sign x) ∧
    (d.key x < d.key y → d.key x < d.key r ∧ d.key r ≤ d.key y ∧
      ∀ z, d.Encoding z → d.isNan z = false → ¬(d.key x < d.key z ∧ d.key z < d.key r)) ∧
    (d.key y < d.key x → d.key r < d.key x ∧ d.key y ≤ d.key r ∧
      ∀ z, d.Encoding z → d.isNan z = false → ¬(d.key r < d.key z ∧ d.key z < d.key x))

/-! ### The inspector (44_inspector.md) -/

/-- R130, R131, R132: INSPF and INSPB give the same view of a pattern, each word and flag of it as R132 says; RANGE for
a word that is no encoding. -/
def Obligations.InspectorGivesTheView : Prop :=
  ∀ (s : State) (p : Prec), s.rom = Rom.table →
    let d := Rom.table.row p
    let v := s.req.a.toNat
    encode (.inspf p) = BitVec.ofNat 32 (0x840 ||| p.code <<< 8) ∧
    encode (.inspb p) = BitVec.ofNat 32 (0x1040 ||| p.code <<< 8) ∧
    (d.Encoding v → ∃ x : Response, exec (.inspf p) s = .next (s.push x) ∧ exec (.inspb p) s = .next (s.push x) ∧
      x.flags = { ok := true, iSign := d.sign v == 1, iNeg := d.isNegative v, iInf := d.isInf v, iNan := d.isNan v,
                  iSub := d.isSub v, iValid := true } ∧
      x.res = s.req.a ∧ x.irexp.toNat = d.rexp v ∧ x.irmant.toNat = d.rmant v ∧
      x.iexp.toInt = (d.rexp v : Int) - d.bias ∧
      x.imnum.toInt = (if d.sign v = 1 then -1 else 1) *
        (if d.rexp v ≠ 0 then 2 ^ d.mant + (d.rmant v : Int) else 2 * (d.rmant v : Int))) ∧
    (2 ^ d.total ≤ v → exec (.inspf p) s = .next (s.push ⟨5, 0, 0, 0, 0, 0⟩) ∧
      exec (.inspb p) s = .next (s.push ⟨5, 0, 0, 0, 0, 0⟩))

/-- R134: the mantissa IMNUM / 2^m(p) by its formula for every encoding, its range in each finite class, and for every
finite v that mantissa times 2^IEXP is v's value. -/
def Obligations.InspectorMantissa : Prop :=
  ∀ (p : Prec) (v : Nat), (Rom.table.row p).Encoding v →
    let d := Rom.table.row p
    let x := inspect d v
    let mantissa : ℚ := x.imnum.toInt / 2 ^ d.mant
    mantissa = (if d.sign v = 1 then -1 else 1) *
      (if d.rexp v ≠ 0 then 1 + (d.rmant v : ℚ) / 2 ^ d.mant else 2 * (d.rmant v : ℚ) / 2 ^ d.mant) ∧
    (d.isFinite v = true → d.finiteValue v = mantissa * (2 : ℚ) ^ x.iexp.toInt) ∧
    (d.isFinite v = true → d.rexp v ≠ 0 →
      if d.sign v = 1 then -2 < mantissa ∧ mantissa ≤ -1 else 1 ≤ mantissa ∧ mantissa < 2) ∧
    (d.isSub v = true → (2 : ℚ) / 2 ^ d.mant ≤ |mantissa| ∧ |mantissa| ≤ 2 - 2 / 2 ^ d.mant ∧
      (mantissa < 0 ↔ d.sign v = 1)) ∧
    (d.isZero v = true → x.imnum = 0 ∧ x.flags.iSign = (d.sign v == 1))

/-- R135: infinities and NaNs give their fields by the same formulas, with I_INF or I_NAN set. -/
def Obligations.InspectorOfInfinitiesAndNans : Prop :=
  ∀ (p : Prec) (v : Nat), (Rom.table.row p).Encoding v → (Rom.table.row p).isFinite v = false →
    let d := Rom.table.row p
    let x := inspect d v
    x.iexp.toInt = (match p with | .H => 16 | .S => 128 | .D => 1024) ∧
    x.imnum.toInt = (if d.sign v = 1 then -(2 ^ d.mant + (d.rmant v : Int)) else 2 ^ d.mant + (d.rmant v : Int)) ∧
    (x.flags.iInf = true ↔ d.rmant v = 0) ∧ (x.flags.iNan = true ↔ d.rmant v ≠ 0)

/-- R136: RES of INSPF is its operand, for every pattern at every precision. -/
def Obligations.InspectorReturnsItsOperand : Prop :=
  ∀ (p : Prec) (a : Word), (Rom.table.row p).Encoding a.toNat → resultOf (.inspf p) a 0 0 = some a

/-! ### Errors (60_exceptions.md) -/

/-- R151: raising an error appends the response that holds its code and zeros. -/
def Obligations.ErrorResponsesHoldOnlyTheCode : Prop :=
  ∀ (e : Err) (s : State), raise e s = .next (s.push ⟨match e with
    | .illegal => 1 | .nonfinite => 2 | .negtol => 3 | .usage => 4 | .range => 5, 0, 0, 0, 0, 0⟩)

/-- R152: one response with the first error that applies. The decode errors come first, ILLEGAL or USAGE in R46's order;
a decoded command reports the first of RANGE on A, RANGE on B, NEGTOL, NONFINITE; and it succeeds, with ERR = 0 and
OK = 1, when none applies. -/
def Obligations.FirstErrorIsReported : Prop :=
  (∀ (s : State) (r : Reject), decode s.req.cmd = .error r →
    s.accept = .next (s.push ⟨if r = .notOneSource then 4 else 1, 0, 0, 0, 0, 0⟩)) ∧
  (∀ (s : State) (i : Instr), decode s.req.cmd = .ok i → s.accept = exec i s) ∧
  ∀ (i : Instr) (s : State), s.rom = Rom.table →
    match expectedError i s.req.a s.req.b s.req.c with
    | some e => exec i s = .next (s.push ⟨BitVec.ofNat 64 e.code, 0, 0, 0, 0, 0⟩)
    | none => ∃ x, exec i s = .next (s.push x) ∧ x.flags.err = 0 ∧ x.flags.ok = true

/-! ### The machine (00_scope.md, 10_state.md, 70_reset_and_hazards.md) -/

/-- R2: two states with the same request (and the constant ROM) answer it with the same response, whatever else they
hold; and the appended response is all that the command leaves behind. -/
def Obligations.ResponseDependsOnlyOnTheRequest : Prop :=
  ∀ s s' : State, s.rom = s'.rom → s.req = s'.req →
    ∃ x, execResponse s.rom s.req = some x ∧ s.accept = .next (s.push x) ∧ s'.accept = .next (s'.push x)

/-- R12: a word that a command does not use changes nothing. PDESC uses none; CMPU uses C; the commands of two operands
use A and B; the others use A. -/
def Obligations.UnusedOperandsAreIgnored : Prop :=
  ∀ (rom : Rom) (p : Prec) (a b c a' b' c' : Word),
    execResponse rom ⟨encode (.pdesc p), a, b, c⟩ = execResponse rom ⟨encode (.pdesc p), a', b', c'⟩ ∧
    (∀ i ∈ [Instr.ulpd p, .ulpds p, .next p],
      execResponse rom ⟨encode i, a, b, c⟩ = execResponse rom ⟨encode i, a, b, c'⟩) ∧
    (∀ i ∈ [Instr.ftob p, .ftobs p, .btof p, .btofs p, .cvtn p, .cvtw p, .inspf p, .inspb p],
      execResponse rom ⟨encode i, a, b, c⟩ = execResponse rom ⟨encode i, a, b', c'⟩)

/-- The frame of all 13 commands: a command appends one entry to the tail of Q and changes nothing else. Its LATENCY is
the one chosen at this edge. -/
def Obligations.CommandsOnlyAppend : Prop :=
  ∀ (i : Instr) (s : State), ∃ t, exec i s = .next t ∧
    (∃ x, t.q = s.q ++ [⟨x, s.choice.latencyLess1⟩]) ∧
    t.rom = s.rom ∧ t.inReset = s.inReset ∧ t.reqValid = s.reqValid ∧ t.req = s.req ∧ t.rspReady = s.rspReady ∧
    t.choice = s.choice ∧ t.held = s.held ∧ t.offered = s.offered ∧ t.script = s.script ∧ t.edge = s.edge

/-- A step at which a request transfers runs the decoded command: on the state whose response side has been served, and
then the edge ends. -/
def Obligations.StepRunsTheDecodedCommand : Prop :=
  ∀ (s : State) (i : Instr), s.breaksDuty = false → s.reqTransfers = true → decode s.req.cmd = .ok i →
    step s = match exec i s.serve with
      | .next t    => .next (t.endEdge true)
      | .fault f   => .fault f
      | .refused r => .refused r

/-- A step at which a word that names no command transfers appends its error response, and goes on. -/
def Obligations.StepAnswersRejectedWords : Prop :=
  ∀ (s : State) (r : Reject), s.breaksDuty = false → s.reqTransfers = true → decode s.req.cmd = .error r →
    step s = .next ((s.serve.push (Response.error (rejectError r))).endEdge true)

/-- The end of an edge brings the next scripted values to the input ports and counts the edge. How inputs are held is the
model's choice (log 5), not a rule of the spec. -/
def Obligations.EdgesFollowTheScript : Prop :=
  ∀ (s u : State) (d : Drive) (rest : List Drive), s.script = d :: rest → step s = .next u →
    u.inReset = d.rst ∧ u.reqValid = d.reqValid ∧ u.req = d.req ∧ u.rspReady = d.rspReady ∧ u.choice = d.choice ∧
    u.script = rest ∧ u.edge = s.edge + 1 ∧ u.rom = s.rom

/-- withFetchWord makes the very next step accept the word, from every state, and leaves the operands (the model's own
way to place a command; log 9). -/
def Obligations.PlacedWordIsAcceptedNext : Prop :=
  ∀ (s : State) (w : Nat), w < 2 ^ 32 →
    let f := s.withFetchWord 32 w
    f.breaksDuty = false ∧ f.accepted = [⟨BitVec.ofNat 32 w, s.req.a, s.req.b, s.req.c⟩] ∧ f.rom = s.rom

/-- R170: an edge in reset empties Q and changes the ROM not at all; no transfer happens; and whatever follows, only
requests accepted after it are answered. -/
def Obligations.ResetDiscardsUndeliveredResponses : Prop :=
  ∀ s : State, s.inReset = true → s.breaksDuty = false →
    s.reqReady = false ∧ s.rspValid = false ∧ s.accepted = [] ∧ s.delivered = [] ∧
    ∃ u, step s = .next u ∧ u.q = [] ∧ u.rom = s.rom ∧
      ∀ d reqs rsps t, Run (u.drive d) reqs rsps t →
        rsps.map some <+: reqs.map (execResponse s.rom)

/-- R173: when the channels transfer, and what an edge outside reset does to Q: the head leaves if the response channel
transfers, the response of the accepted request comes to the tail if the request channel transfers, and both may happen. -/
def Obligations.TransfersMoveTheQueue : Prop :=
  (∀ s : State, s.reqTransfers = (!s.inReset && s.reqValid && s.reqReady) ∧
    s.rspTransfers = (!s.inReset && s.rspValid && s.rspReady)) ∧
  ∀ s : State, s.inReset = false → s.breaksDuty = false →
    ∃ u x, step s = .next u ∧ execResponse s.rom s.req = some x ∧
      u.q.map Entry.rsp = (if s.rspTransfers then s.q.tail else s.q).map Entry.rsp ++
        (if s.reqTransfers then [x] else [])

/-- R174: order. Over a run outside reset, the responses waiting at the start, followed by the answers to the requests
accepted, are the responses delivered, followed by those still waiting; and while rsp_valid = 1 the ports show the head. -/
def Obligations.ResponsesComeInAcceptanceOrder : Prop :=
  (∀ s reqs rsps t, Run s reqs rsps t →
    (s.q.map Entry.rsp).map some ++ reqs.map (execResponse s.rom) = (rsps ++ t.q.map Entry.rsp).map some) ∧
  ∀ s : State, s.rspValid = true → ∃ e rest, s.q = e :: rest ∧ s.rspPorts = e.rsp

/-- R175: what bounds `req_ready` and `rsp_valid`, that they are free within the bounds, and that an offer stays, with
its words, until it is taken or a reset happens. -/
def Obligations.ChannelSignalsKeepTheirRules : Prop :=
  ∀ s : State,
    (s.q.length = Config.qDepth → s.reqReady = false) ∧ (s.inReset = true → s.reqReady = false) ∧
    (s.inReset = false → s.q.length < Config.qDepth → ∀ b : Bool, ∃ c, { s with choice := c }.reqReady = b) ∧
    (s.q = [] → s.rspValid = false) ∧ (s.inReset = true → s.rspValid = false) ∧
    (s.inReset = false → s.offered = false → (∃ e rest, s.q = e :: rest ∧ e.wait = 0) →
      ∀ b : Bool, ∃ c, { s with choice := c }.rspValid = b) ∧
    (∀ u d, s.rspValid = true → s.rspReady = false → step s = .next u → d.rst = false →
      s.inReset = false → (u.drive d).rspValid = true ∧ (u.drive d).rspPorts = s.rspPorts)

/-- The lower bound of R175: a response is not delivered before LATENCY edges have passed. An accepted request's entry
waits LATENCY - 1 edges, a wait falls by one an edge, and nothing that still waits is offered. -/
def Obligations.LatencyKeepsResponsesBack : Prop :=
  ∀ (s u : State), s.inReset = false → step s = .next u →
    (s.rspValid = true → ∃ e rest, s.q = e :: rest ∧ e.wait = 0) ∧
    u.q.map Entry.wait = (if s.rspTransfers then s.q.tail else s.q).map (fun e => e.wait - 1) ++
      (if s.reqTransfers then [s.choice.latencyLess1] else [])

/-- The first duty of R177, as the model reads it: a step refuses exactly the runs whose requester dropped or changed a
request it had offered and that was not accepted; and a request offered and not accepted is what the next edge holds the
requester to, after an edge in reset as after any other, which is the model's reading (DEDUCED, log 6). That no step faults
is the model's reading of R180 (DEDUCED, log 10). -/
def Obligations.OnlyABrokenDutyIsRefused : Prop :=
  ∀ s : State,
    (∀ f, step s ≠ .fault f) ∧
    (∀ r, step s = .refused r ↔
      r = .requestChanged ∧ ∃ q, s.held = some q ∧ (s.reqValid = false ∨ s.req ≠ q)) ∧
    (∀ u, step s = .next u → u.held = if s.reqValid && !s.reqTransfers then some s.req else none)

/-- Progress under `Fair`, the model's reading of R178's fairness assumption (DEDUCED, log 19): in an endless fair run with
no reset, in which the requester is ready at infinitely many edges, every response that waits is delivered, in the order
of Q. -/
def Obligations.EveryResponseIsDelivered : Prop :=
  ∀ r : Nat → State, Endless r → Fair r → (∀ n, (r n).inReset = false) →
    (∀ n, ∃ m, n ≤ m ∧ (r m).rspReady = true) →
    ∀ n, ∃ k, (r n).q.map Entry.rsp <+: deliveredFrom r n k

/-- Progress of requests under `Fair`, the model's reading of R178's fairness assumption (DEDUCED, log 19), and the duty of
R177: in an endless fair run with no reset, in which the requester is ready, and Q has room, at infinitely many edges, a
request that is offered is accepted, as it was offered. -/
def Obligations.OfferedRequestsAreAccepted : Prop :=
  ∀ r : Nat → State, Endless r → Fair r → (∀ n, (r n).inReset = false) →
    (∀ n, ∃ m, n ≤ m ∧ (r m).rspReady = true) →
    (∀ n, ∃ m, n ≤ m ∧ (r m).q.length < Config.qDepth) →
    ∀ n, (r n).reqValid = true → ∃ m, n ≤ m ∧ (r m).accepted = [(r n).req]

/-- The invariant holds after reset. -/
def Obligations.ResetMeetsTheInvariant : Prop := Invariant State.reset

/-- Every edge keeps the invariant, whatever the requester drives next: the ROM is the constant table, Q never holds more
than QDEPTH entries, every entry is a response of the spec's shape, and a standing offer is a finished head. -/
def Obligations.EdgesKeepTheInvariant : Prop :=
  ∀ s t : State, Invariant s → Edge s t → Invariant t
end

