-- ==== Sys2Proof/Laws/Codec.lean ====
section
/-! SUPPORT. What the rounding helpers of CVTN do: the integer forms of Machine/Codec.lean are those of 41_codec.md R84
over the rationals (log 11). -/

namespace Sys2Proof.Machine

/-- `roundHalfEven` is within one half of the quotient, and even where it is exactly one half away (R84). -/
theorem roundHalfEven_spec (num : Nat) {den : Nat} (h : 0 < den) :
    let r := roundHalfEven num den
    2 * num ≤ 2 * (r * den) + den ∧ 2 * (r * den) ≤ 2 * num + den ∧
    (2 * num = 2 * (r * den) + den ∨ 2 * (r * den) = 2 * num + den → r % 2 = 0) := by
  have h1 := Nat.div_add_mod num den
  have h2 := Nat.mod_lt num h
  rw [Nat.mul_comm] at h1
  have h3 : (num / den + 1) * den = num / den * den + den := by rw [Nat.add_mul, Nat.one_mul]
  unfold roundHalfEven
  simp only
  split
  · refine ⟨by omega, by omega, by omega⟩
  · split
    · rw [h3]; refine ⟨by omega, by omega, by omega⟩
    · split
      · refine ⟨by omega, by omega, by omega⟩
      · rw [h3]; refine ⟨by omega, by omega, by omega⟩

/-- The shortcut of `roundScaled` for small numbers changes nothing. -/
theorem roundScaled_of_neg {n : Nat} {k : Int} (h : k < 0) :
    roundScaled n k = roundHalfEven n (2 ^ (-k).toNat) := by
  unfold roundScaled
  rw [if_neg (by omega)]
  split
  · rename_i hl
    have hn : n < 2 ^ (Nat.log2 n + 1) := Nat.lt_log2_self
    obtain ⟨j, hj⟩ : ∃ j, (-k).toNat = Nat.log2 n + 2 + j := ⟨(-k).toNat - (Nat.log2 n + 2), by omega⟩
    have hp : 2 ^ (Nat.log2 n + 1) * 2 ≤ 2 ^ (-k).toNat := by
      rw [hj, ← Nat.pow_succ]; exact Nat.pow_le_pow_right (by decide) (by omega)
    have h1 : n / 2 ^ (-k).toNat = 0 := Nat.div_eq_of_lt (by omega)
    have h2 : n % 2 ^ (-k).toNat = n := Nat.mod_eq_of_lt (by omega)
    simp only [roundHalfEven, h1, h2]
    rw [if_pos (by omega)]
  · rfl

theorem roundScaled_of_nonneg {n : Nat} {k : Int} (h : 0 ≤ k) : roundScaled n k = n * 2 ^ k.toNat := by
  unfold roundScaled; rw [if_pos h]

/-- `scaledAtLeast` is the comparison over the rationals that R84 makes. -/
theorem scaledAtLeast_iff (n : Nat) (q k : Int) : scaledAtLeast n q k = true ↔ (2 : ℚ) ^ k ≤ n * (2 : ℚ) ^ q := by
  unfold scaledAtLeast
  rw [decide_eq_true_iff]
  have hq : (0 : ℚ) < 2 ^ q := by positivity
  rcases Nat.eq_zero_or_pos n with rfl | hn
  · have : (0 : ℚ) < 2 ^ k := by positivity
    simp; linarith
  · have h1 : ((2 ^ Nat.log2 n : ℕ) : ℚ) ≤ n := by exact_mod_cast Nat.log2_self_le (by omega)
    have h2 : (n : ℚ) < ((2 ^ (Nat.log2 n + 1) : ℕ) : ℚ) := by exact_mod_cast Nat.lt_log2_self
    refine ⟨fun ⟨_, h⟩ => ?_, fun h => ⟨hn, ?_⟩⟩
    · calc (2 : ℚ) ^ k ≤ 2 ^ (q + Nat.log2 n) := zpow_le_zpow_right₀ (by norm_num) h
        _ = ((2 ^ Nat.log2 n : ℕ) : ℚ) * 2 ^ q := by rw [zpow_add₀ (by norm_num)]; push_cast; rw [zpow_natCast]; ring
        _ ≤ n * 2 ^ q := by gcongr
    · have h3 : (2 : ℚ) ^ k < 2 ^ (q + Nat.log2 n + 1) := by
        calc (2 : ℚ) ^ k ≤ n * 2 ^ q := h
          _ < ((2 ^ (Nat.log2 n + 1) : ℕ) : ℚ) * 2 ^ q := by gcongr
          _ = 2 ^ (q + Nat.log2 n + 1) := by
            rw [add_assoc, zpow_add₀ (by norm_num)]; push_cast
            rw [show ((Nat.log2 n : ℤ) + 1) = ((Nat.log2 n + 1 : ℕ) : ℤ) by push_cast; rfl, zpow_natCast]; ring
      have := (zpow_lt_zpow_iff_right₀ (by norm_num : (1 : ℚ) < 2)).1 h3
      omega

end Sys2Proof.Machine
end

