-- ==== Sys2Proof/Laws/State.lean ====
section
/-! SUPPORT. One lemma per field per update of State, and what the end of an edge leaves. -/

namespace Sys2Proof.Machine.State

variable (s : State)

@[simp] theorem push_rom (r : Response) : (s.push r).rom = s.rom := rfl
@[simp] theorem push_q (r : Response) : (s.push r).q = s.q ++ [⟨r, s.choice.latencyLess1⟩] := rfl
@[simp] theorem push_inReset (r : Response) : (s.push r).inReset = s.inReset := rfl
@[simp] theorem push_reqValid (r : Response) : (s.push r).reqValid = s.reqValid := rfl
@[simp] theorem push_req (r : Response) : (s.push r).req = s.req := rfl
@[simp] theorem push_rspReady (r : Response) : (s.push r).rspReady = s.rspReady := rfl
@[simp] theorem push_choice (r : Response) : (s.push r).choice = s.choice := rfl
@[simp] theorem push_held (r : Response) : (s.push r).held = s.held := rfl
@[simp] theorem push_offered (r : Response) : (s.push r).offered = s.offered := rfl
@[simp] theorem push_script (r : Response) : (s.push r).script = s.script := rfl
@[simp] theorem push_edge (r : Response) : (s.push r).edge = s.edge := rfl

@[simp] theorem setQueue_rom (q : List Entry) (o : Bool) : (s.setQueue q o).rom = s.rom := rfl
@[simp] theorem setQueue_q (q : List Entry) (o : Bool) : (s.setQueue q o).q = q := rfl
@[simp] theorem setQueue_inReset (q : List Entry) (o : Bool) : (s.setQueue q o).inReset = s.inReset := rfl
@[simp] theorem setQueue_reqValid (q : List Entry) (o : Bool) : (s.setQueue q o).reqValid = s.reqValid := rfl
@[simp] theorem setQueue_req (q : List Entry) (o : Bool) : (s.setQueue q o).req = s.req := rfl
@[simp] theorem setQueue_rspReady (q : List Entry) (o : Bool) : (s.setQueue q o).rspReady = s.rspReady := rfl
@[simp] theorem setQueue_choice (q : List Entry) (o : Bool) : (s.setQueue q o).choice = s.choice := rfl
@[simp] theorem setQueue_held (q : List Entry) (o : Bool) : (s.setQueue q o).held = s.held := rfl
@[simp] theorem setQueue_offered (q : List Entry) (o : Bool) : (s.setQueue q o).offered = o := rfl
@[simp] theorem setQueue_script (q : List Entry) (o : Bool) : (s.setQueue q o).script = s.script := rfl
@[simp] theorem setQueue_edge (q : List Entry) (o : Bool) : (s.setQueue q o).edge = s.edge := rfl

@[simp] theorem setHeld_rom (h : Option Request) : (s.setHeld h).rom = s.rom := rfl
@[simp] theorem setHeld_q (h : Option Request) : (s.setHeld h).q = s.q := rfl
@[simp] theorem setHeld_inReset (h : Option Request) : (s.setHeld h).inReset = s.inReset := rfl
@[simp] theorem setHeld_reqValid (h : Option Request) : (s.setHeld h).reqValid = s.reqValid := rfl
@[simp] theorem setHeld_req (h : Option Request) : (s.setHeld h).req = s.req := rfl
@[simp] theorem setHeld_rspReady (h : Option Request) : (s.setHeld h).rspReady = s.rspReady := rfl
@[simp] theorem setHeld_choice (h : Option Request) : (s.setHeld h).choice = s.choice := rfl
@[simp] theorem setHeld_held (h : Option Request) : (s.setHeld h).held = h := rfl
@[simp] theorem setHeld_offered (h : Option Request) : (s.setHeld h).offered = s.offered := rfl
@[simp] theorem setHeld_script (h : Option Request) : (s.setHeld h).script = s.script := rfl
@[simp] theorem setHeld_edge (h : Option Request) : (s.setHeld h).edge = s.edge := rfl

@[simp] theorem drive_rom (d : Drive) : (s.drive d).rom = s.rom := rfl
@[simp] theorem drive_q (d : Drive) : (s.drive d).q = s.q := rfl
@[simp] theorem drive_inReset (d : Drive) : (s.drive d).inReset = d.rst := rfl
@[simp] theorem drive_reqValid (d : Drive) : (s.drive d).reqValid = d.reqValid := rfl
@[simp] theorem drive_req (d : Drive) : (s.drive d).req = d.req := rfl
@[simp] theorem drive_rspReady (d : Drive) : (s.drive d).rspReady = d.rspReady := rfl
@[simp] theorem drive_choice (d : Drive) : (s.drive d).choice = d.choice := rfl
@[simp] theorem drive_held (d : Drive) : (s.drive d).held = s.held := rfl
@[simp] theorem drive_offered (d : Drive) : (s.drive d).offered = s.offered := rfl
@[simp] theorem drive_script (d : Drive) : (s.drive d).script = s.script := rfl
@[simp] theorem drive_edge (d : Drive) : (s.drive d).edge = s.edge := rfl

@[simp] theorem nextEdge_rom (l : List Drive) : (s.nextEdge l).rom = s.rom := rfl
@[simp] theorem nextEdge_q (l : List Drive) : (s.nextEdge l).q = s.q := rfl
@[simp] theorem nextEdge_inReset (l : List Drive) : (s.nextEdge l).inReset = s.inReset := rfl
@[simp] theorem nextEdge_reqValid (l : List Drive) : (s.nextEdge l).reqValid = s.reqValid := rfl
@[simp] theorem nextEdge_req (l : List Drive) : (s.nextEdge l).req = s.req := rfl
@[simp] theorem nextEdge_rspReady (l : List Drive) : (s.nextEdge l).rspReady = s.rspReady := rfl
@[simp] theorem nextEdge_choice (l : List Drive) : (s.nextEdge l).choice = s.choice := rfl
@[simp] theorem nextEdge_held (l : List Drive) : (s.nextEdge l).held = s.held := rfl
@[simp] theorem nextEdge_offered (l : List Drive) : (s.nextEdge l).offered = s.offered := rfl
@[simp] theorem nextEdge_script (l : List Drive) : (s.nextEdge l).script = l := rfl
@[simp] theorem nextEdge_edge (l : List Drive) : (s.nextEdge l).edge = s.edge + 1 := rfl

@[simp] theorem flush_rom : (s.flush).rom = s.rom := rfl
@[simp] theorem flush_q : (s.flush).q = [] := rfl
@[simp] theorem flush_inReset : (s.flush).inReset = s.inReset := rfl
@[simp] theorem flush_reqValid : (s.flush).reqValid = s.reqValid := rfl
@[simp] theorem flush_req : (s.flush).req = s.req := rfl
@[simp] theorem flush_rspReady : (s.flush).rspReady = s.rspReady := rfl
@[simp] theorem flush_choice : (s.flush).choice = s.choice := rfl
@[simp] theorem flush_held : (s.flush).held = s.held := rfl
@[simp] theorem flush_offered : (s.flush).offered = false := rfl
@[simp] theorem flush_script : (s.flush).script = s.script := rfl
@[simp] theorem flush_edge : (s.flush).edge = s.edge := rfl

@[simp] theorem serve_rom : (s.serve).rom = s.rom := rfl
@[simp] theorem serve_q : (s.serve).q = (if s.rspTransfers then s.q.tail else s.q).map Entry.age := rfl
@[simp] theorem serve_inReset : (s.serve).inReset = s.inReset := rfl
@[simp] theorem serve_reqValid : (s.serve).reqValid = s.reqValid := rfl
@[simp] theorem serve_req : (s.serve).req = s.req := rfl
@[simp] theorem serve_rspReady : (s.serve).rspReady = s.rspReady := rfl
@[simp] theorem serve_choice : (s.serve).choice = s.choice := rfl
@[simp] theorem serve_held : (s.serve).held = s.held := rfl
@[simp] theorem serve_offered : (s.serve).offered = (s.rspValid && !s.rspReady) := rfl
@[simp] theorem serve_script : (s.serve).script = s.script := rfl
@[simp] theorem serve_edge : (s.serve).edge = s.edge := rfl

@[simp] theorem endEdge_rom (b : Bool) : (s.endEdge b).rom = s.rom := by
  unfold endEdge; cases s.script <;> rfl

@[simp] theorem endEdge_q (b : Bool) : (s.endEdge b).q = s.q := by
  unfold endEdge; cases s.script <;> rfl

@[simp] theorem endEdge_offered (b : Bool) : (s.endEdge b).offered = s.offered := by
  unfold endEdge; cases s.script <;> rfl

@[simp] theorem endEdge_held (b : Bool) :
    (s.endEdge b).held = if s.reqValid && !b then some s.req else none := by
  unfold endEdge; cases s.script <;> rfl

@[simp] theorem endEdge_edge (b : Bool) : (s.endEdge b).edge = s.edge + 1 := by
  unfold endEdge; cases s.script <;> rfl

@[simp] theorem endEdge_script (b : Bool) : (s.endEdge b).script = s.script.tail := by
  unfold endEdge; cases s.script <;> rfl

end Sys2Proof.Machine.State
end

