-- ==== Sys2Proof/Laws/Ops.lean ====
section
/-! SUPPORT. What the shared operations of Machine/Ops.lean, Flags.lean and Operands.lean can do, said once. -/

namespace Sys2Proof.Machine

@[simp] theorem answer_ok (s : State) (r : Response) : s.answer (.ok r) = .next (s.push r) := rfl

@[simp] theorem answer_error (s : State) (e : Err) :
    s.answer (.error e) = .next (s.push (Response.error e)) := rfl

theorem raise_pushes_error (e : Err) (s : State) : raise e s = .next (s.push (Response.error e)) := rfl

/-- The response that a command's result stands for: its own, or that of the error it raised. -/
def responseOf : Except Err Response → Response
  | .ok r    => r
  | .error e => Response.error e

@[simp] theorem responseOf_ok (r : Response) : responseOf (.ok r) = r := rfl

@[simp] theorem responseOf_error (e : Err) : responseOf (.error e) = Response.error e := rfl

/-- Answering always goes on, and only appends the response. -/
theorem answer_pushes (s : State) (x : Except Err Response) : s.answer x = .next (s.push (responseOf x)) := by
  cases x <;> rfl

@[simp] theorem success_res (w : Word) (f : StatusFields) : (Response.success w f).res = w := rfl

@[simp] theorem success_status (w : Word) (f : StatusFields) :
    (Response.success w f).status = StatusFields.pack { f with ok := true } := rfl

theorem success_plain (w : Word) : Response.success w = ⟨0x10, w, 0, 0, 0, 0⟩ := rfl

theorem success_negative (w : Word) (b : Bool) :
    Response.success w { neg := b } = ⟨if b then 0x30 else 0x10, w, 0, 0, 0, 0⟩ := by cases b <;> rfl

theorem success_true (w : Word) (b : Bool) :
    Response.success w { true' := b } = ⟨if b then 0x50 else 0x10, w, 0, 0, 0, 0⟩ := by cases b <;> rfl

@[simp] theorem error_words (e : Err) :
    Response.error e = ⟨BitVec.ofNat 64 e.code, 0, 0, 0, 0, 0⟩ := rfl

/-- A word below 2^t(p) is a typed operand and reads as itself (R47). -/
theorem typed_of_lt {d : Desc} {w : Word} (ht : 0 < d.total) (h : w.toNat < 2 ^ d.total) :
    typed d w = .ok w.toNat := by
  have h0 : w.toNat / 2 ^ d.total = 0 := Nat.div_eq_of_lt h
  have h1 : d.total - 1 + 1 = d.total := by omega
  simp [typed, bits, h0, h1, Nat.mod_eq_of_lt h]

/-- A word with a bit above t(p) set is no typed operand (R47). -/
theorem typed_of_ge {d : Desc} {w : Word} (h : 2 ^ d.total ≤ w.toNat) : typed d w = .error .range := by
  have h0 : w.toNat / 2 ^ d.total ≠ 0 :=
    Nat.ne_of_gt (Nat.div_pos h (Nat.pow_pos (by decide)))
  simp [typed, h0]

/-- `sval_64` is the two's-complement reading of a word. -/
theorem sval64_eq_toInt (w : Word) : sval64 w = w.toInt := by
  have h := w.isLt
  have hb : bit w.toNat 63 = w.toNat / 2 ^ 63 := by
    unfold bit; omega
  unfold sval64
  rw [hb, BitVec.toInt_eq_toNat_cond]
  split <;> split <;> first | rfl | omega

/-- `sext_64` of a t-bit field, as an integer. -/
theorem sext64_toInt {t v : Nat} (ht : 0 < t) (ht' : t ≤ 64) :
    (sext64 t v).toInt =
      if v % 2 ^ t < 2 ^ (t - 1) then ((v % 2 ^ t : Nat) : Int) else (v % 2 ^ t : Nat) - 2 ^ t := by
  have h0 : t - 1 + 1 - 0 = t := by omega
  have hb : bits v (t - 1) 0 = v % 2 ^ t := by simp [bits, h0]
  have hlt : v % 2 ^ t < 2 ^ t := Nat.mod_lt _ (Nat.pow_pos (by decide))
  have hp : 2 ^ t = 2 ^ (t - 1) * 2 := by rw [← Nat.pow_succ]; congr 1; omega
  have hle : 2 ^ (t - 1) ≤ 2 ^ 63 := Nat.pow_le_pow_right (by decide) (by omega)
  have hbit : bit (v % 2 ^ t) (t - 1) = v % 2 ^ t / 2 ^ (t - 1) := by
    unfold bit
    exact Nat.mod_eq_of_lt (Nat.div_lt_of_lt_mul (by rw [← hp]; exact hlt))
  have hpz : (2 : Int) ^ t = ((2 ^ (t - 1) : Nat) : Int) * 2 := by exact_mod_cast hp
  unfold sext64 tc64
  simp only [hb, hbit, BitVec.toInt_ofInt]
  rw [hpz]
  have hlt2 : v % 2 ^ t < 2 ^ (t - 1) * 2 := by omega
  clear hlt hp hpz hbit hb
  have hpos : 0 < 2 ^ (t - 1) := Nat.pow_pos (by decide)
  generalize 2 ^ (t - 1) = K at *
  generalize v % 2 ^ t = x at *
  by_cases hx : x < K
  · rw [Nat.div_eq_of_lt hx, if_neg (by decide), if_pos hx, Int.bmod_eq_of_le_mul_two] <;> omega
  · rw [Nat.div_eq_of_lt_le (k := 1) (by omega) (by omega), if_pos rfl, if_neg hx, Int.bmod_eq_of_le_mul_two] <;> omega

/-- A word is the sign extension of its low t bits exactly if it lies in the signed range of t bits. -/
theorem sext64_eq_iff {t : Nat} {w : Word} (ht : 0 < t) (ht' : t ≤ 64) :
    sext64 t w.toNat = w ↔ -2 ^ (t - 1) ≤ w.toInt ∧ w.toInt < 2 ^ (t - 1) := by
  rw [← BitVec.toInt_inj, sext64_toInt ht ht', BitVec.toInt_eq_toNat_cond]
  have hx := w.isLt
  have hlt : w.toNat % 2 ^ t < 2 ^ t := Nat.mod_lt _ (Nat.pow_pos (by decide))
  have hp : 2 ^ t = 2 ^ (t - 1) * 2 := by rw [← Nat.pow_succ]; congr 1; omega
  have hz : (2 : Int) ^ (t - 1) = ((2 ^ (t - 1) : Nat) : Int) := by push_cast; rfl
  have hpz : (2 : Int) ^ t = ((2 ^ (t - 1) : Nat) : Int) * 2 := by exact_mod_cast hp
  have hle : 2 ^ (t - 1) ≤ 2 ^ 63 := Nat.pow_le_pow_right (by decide) (by omega)
  obtain ⟨c, hc⟩ : ∃ c, 2 ^ 64 = 2 ^ t * c := ⟨2 ^ (64 - t), by rw [← Nat.pow_add]; congr 1; omega⟩
  rw [hz, hpz]
  by_cases hs : 2 * w.toNat < 2 ^ 64
  · rw [if_pos hs]
    refine ⟨fun h => ?_, fun h => ?_⟩
    · split at h <;> omega
    · have : w.toNat % 2 ^ t = w.toNat := Nat.mod_eq_of_lt (by omega)
      rw [this, if_pos (by omega)]
  · rw [if_neg hs]
    refine ⟨fun h => ?_, fun h => ?_⟩
    · split at h <;> omega
    · obtain ⟨j, hj⟩ : ∃ j, w.toNat + j = 2 ^ 64 := ⟨2 ^ 64 - w.toNat, by omega⟩
      have hj1 : j ≤ 2 ^ (t - 1) := by omega
      have hj0 : 0 < j := by omega
      have hc1 : 1 ≤ c := by
        rcases Nat.eq_zero_or_pos c with h0 | h0
        · rw [h0] at hc; omega
        · exact h0
      have hw : w.toNat = 2 ^ t - j + 2 ^ t * (c - 1) := by
        obtain ⟨c', rfl⟩ := Nat.exists_eq_add_of_le hc1
        rw [Nat.mul_add] at hc
        rw [Nat.add_sub_cancel_left]
        omega
      have hm : w.toNat % 2 ^ t = 2 ^ t - j := by
        rw [hw, Nat.add_mul_mod_self_left]; exact Nat.mod_eq_of_lt (by omega)
      rw [hm, if_neg (by omega)]
      omega

/-- A word of the signed range of t(p) bits reads as its low t(p) bits (R48). -/
theorem signedBits_of_mem {d : Desc} {w : Word} (ht : 0 < d.total) (ht' : d.total ≤ 64)
    (h : -2 ^ (d.total - 1) ≤ w.toInt ∧ w.toInt < 2 ^ (d.total - 1)) :
    signedBits d w = .ok (w.toNat % 2 ^ d.total) := by
  have h1 : d.total - 1 + 1 - 0 = d.total := by omega
  simp [signedBits, (sext64_eq_iff ht ht').2 h, bits, h1]

/-- A word outside that range raises RANGE (R48). -/
theorem signedBits_of_not_mem {d : Desc} {w : Word} (ht : 0 < d.total) (ht' : d.total ≤ 64)
    (h : ¬(-2 ^ (d.total - 1) ≤ w.toInt ∧ w.toInt < 2 ^ (d.total - 1))) :
    signedBits d w = .error .range := by
  simp only [signedBits, ne_eq, sext64_eq_iff ht ht', h, not_false_eq_true, if_true]

end Sys2Proof.Machine
end

