-- ==== Sys2Proof/Laws/Exec.lean ====
section
/-! SUPPORT. What running a command and taking an edge can do, said once. -/

namespace Sys2Proof.Machine

/-- What a command makes of the ROM and a request: its response, or the error it raises. -/
def commandResult (i : Instr) (rom : Rom) (r : Request) : Except Err Response :=
  match i with
  | .pdesc p => .ok (.success (zext64 (rom.row p).packed))
  | .ftob p  => ftob (rom.row p) r.a
  | .ftobs p => ftobs (rom.row p) r.a
  | .btof p  => btof (rom.row p) r.a
  | .btofs p => btofs (rom.row p) r.a
  | .cvtn p  => .ok (cvtn rom p r.a)
  | .cvtw p  => cvtw rom p r.a
  | .ulpd p  => ulpd (rom.row p) false r.a r.b
  | .ulpds p => ulpd (rom.row p) true r.a r.b
  | .cmpu p  => cmpu (rom.row p) r.a r.b r.c
  | .next p  => nextafter (rom.row p) r.a r.b
  | .inspf p => inspf (rom.row p) r.a
  | .inspb p => inspb (rom.row p) r.a

/-- The one inversion of exec: it answers what the command makes of the ROM and the request. -/
theorem exec_answers (i : Instr) (s : State) : exec i s = s.answer (commandResult i s.rom s.req) := by
  cases i <;> rfl

/-- What a request is answered with, a word that names no command included. -/
def requestResult (rom : Rom) (r : Request) : Except Err Response :=
  match decode r.cmd with
  | .ok i    => commandResult i rom r
  | .error e => .error (rejectError e)

/-- The one inversion of a request transfer. -/
theorem accept_answers (s : State) : s.accept = .next (s.push (responseOf (requestResult s.rom s.req))) := by
  unfold State.accept requestResult
  cases decode s.req.cmd with
  | ok i => exact (exec_answers i s).trans (answer_pushes s _)
  | error e => rfl

theorem execResponse_of_result (rom : Rom) (r : Request) :
    execResponse rom r = some (responseOf (requestResult rom r)) := by
  simp [execResponse, accept_answers, State.reset]

theorem hasRoom_iff (s : State) : s.hasRoom = true ↔ s.q.length < Config.qDepth := by
  unfold State.hasRoom Config.qDepth
  cases s.q <;> simp

/-- The one inversion of a step: it goes on unless the requester's duty is broken, and then it is one of three edges. -/
theorem step_cases {s u : State} (h : step s = .next u) :
    s.breaksDuty = false ∧
    ((s.inReset = true ∧ u = s.flush.endEdge false) ∨
     (s.inReset = false ∧ s.reqTransfers = true ∧
       u = (s.serve.push (responseOf (requestResult s.rom s.req))).endEdge true) ∨
     (s.inReset = false ∧ s.reqTransfers = false ∧ u = s.serve.endEdge false)) := by
  unfold step at h
  cases hb : s.breaksDuty <;> cases hr : s.inReset <;> cases hq : s.reqTransfers <;>
    simp_all [accept_answers]

theorem step_goes_on {s : State} (h : s.breaksDuty = false) : ∃ u, step s = .next u := by
  unfold step
  cases s.inReset <;> cases s.reqTransfers <;> simp [h, accept_answers]

end Sys2Proof.Machine
end

