-- ==== Sys2Proof/Laws/Format.lean ====
section
/-! SUPPORT. The fields of an encoding at the three rows of the table, as divisions and remainders by literals. -/

namespace Sys2Proof.Machine

@[simp] theorem table_row_H : Rom.table.row .H = ⟨16, 5, 10, 15⟩ := rfl
@[simp] theorem table_row_S : Rom.table.row .S = ⟨32, 8, 23, 127⟩ := rfl
@[simp] theorem table_row_D : Rom.table.row .D = ⟨64, 11, 52, 1023⟩ := rfl

/-- A row that the table may hold: its widths add up (R61) and leave room for each field. -/
def Desc.Wf (d : Desc) : Prop :=
  d.total = 1 + d.exp + d.mant ∧ 2 ≤ d.exp ∧ 1 ≤ d.mant ∧ d.total ≤ 64

theorem table_row_wf (p : Prec) : (Rom.table.row p).Wf := by
  cases p <;> simp [Desc.Wf]

/-- An encoding splits into its sign and its magnitude (R62, R64). -/
theorem Desc.sign_mag {d : Desc} (hd : d.Wf) {x : Nat} (hx : d.Encoding x) :
    x = d.sign x * 2 ^ (d.total - 1) + d.mag x ∧ d.sign x < 2 ∧ d.mag x < 2 ^ (d.total - 1) := by
  obtain ⟨ht, he, hm, -⟩ := hd
  have h1 : d.total - 2 + 1 - 0 = d.total - 1 := by omega
  have hp : 2 ^ d.total = 2 ^ (d.total - 1) * 2 := by
    rw [← Nat.pow_succ]; congr 1; omega
  have hs : x / 2 ^ (d.total - 1) < 2 :=
    Nat.div_lt_of_lt_mul (by rw [← hp]; exact hx)
  have hb : d.sign x = x / 2 ^ (d.total - 1) := by
    unfold Desc.sign bit; exact Nat.mod_eq_of_lt hs
  have hg : d.mag x = x % 2 ^ (d.total - 1) := by
    unfold Desc.mag bits; rw [h1]; simp
  refine ⟨?_, by omega, ?_⟩
  · rw [hb, hg, Nat.mul_comm]; exact (Nat.div_add_mod _ _).symm
  · rw [hg]; exact Nat.mod_lt _ (Nat.pow_pos (by decide))

/-- The magnitude is the exponent field above the mantissa field (R62, R64). -/
theorem Desc.mag_fields {d : Desc} (hd : d.Wf) (x : Nat) :
    d.mag x = d.rexp x * 2 ^ d.mant + d.rmant x ∧ d.rexp x < 2 ^ d.exp ∧ d.rmant x < 2 ^ d.mant := by
  obtain ⟨ht, he, hm, -⟩ := hd
  have h1 : d.total - 2 + 1 - 0 = d.mant + d.exp := by omega
  have h2 : d.total - 2 + 1 - d.mant = d.exp := by omega
  have h3 : d.mant - 1 + 1 - 0 = d.mant := by omega
  have hr : d.rexp x = x / 2 ^ d.mant % 2 ^ d.exp := by unfold Desc.rexp bits; rw [h2]
  have hm' : d.rmant x = x % 2 ^ d.mant := by unfold Desc.rmant bits; rw [h3]; simp
  refine ⟨?_, ?_, ?_⟩
  · unfold Desc.mag bits
    rw [h1, hr, hm', Nat.pow_add]
    simp only [Nat.pow_zero, Nat.div_one]
    rw [Nat.mod_mul, Nat.add_comm, Nat.mul_comm]
  · rw [hr]; exact Nat.mod_lt _ (Nat.pow_pos (by decide))
  · rw [hm']; exact Nat.mod_lt _ (Nat.pow_pos (by decide))

/-- A sign and a magnitude determine an encoding, whose fields they are (R62, R64). -/
theorem Desc.sign_mag_unique {d : Desc} (hd : d.Wf) {x s g : Nat} (hx : x = s * 2 ^ (d.total - 1) + g) (hs : s < 2)
    (hg : g < 2 ^ (d.total - 1)) : d.Encoding x ∧ d.sign x = s ∧ d.mag x = g := by
  have hp : 2 ^ d.total = 2 ^ (d.total - 1) * 2 := by
    have := hd.1; rw [← Nat.pow_succ]; congr 1; omega
  have hx' : x < 2 ^ d.total := by
    have : s * 2 ^ (d.total - 1) ≤ 1 * 2 ^ (d.total - 1) := Nat.mul_le_mul_right _ (by omega)
    omega
  obtain ⟨h1, h2, h3⟩ := Desc.sign_mag hd hx'
  refine ⟨hx', ?_⟩
  generalize 2 ^ (d.total - 1) = K at *
  generalize d.sign x = a at *
  generalize d.mag x = b at *
  interval_cases s <;> interval_cases a <;> omega

/-- The key of an encoding, by its sign (R64). -/
theorem Desc.key_cases (d : Desc) (x : Nat) :
    (d.sign x = 1 ∧ d.key x = -(d.mag x : Int)) ∨ (d.sign x ≠ 1 ∧ d.key x = d.mag x) := by
  unfold Desc.key
  by_cases h : d.sign x = 1 <;> simp [h]

/-- The class of an encoding is read off its magnitude (R63). -/
theorem Desc.class_of_mag {d : Desc} (hd : d.Wf) (x : Nat) :
    (d.isNan x = true ↔ (2 ^ d.exp - 1) * 2 ^ d.mant < d.mag x) ∧
    (d.isInf x = true ↔ d.mag x = (2 ^ d.exp - 1) * 2 ^ d.mant) ∧
    (d.isFinite x = true ↔ d.mag x < (2 ^ d.exp - 1) * 2 ^ d.mant) := by
  obtain ⟨h3, h4, h5⟩ := Desc.mag_fields hd x
  simp only [Desc.isNan, Desc.isInf, Desc.isFinite, Desc.emax, Bool.and_eq_true, beq_iff_eq, bne_iff_ne, ne_eq]
  rw [h3]
  by_cases h : d.rexp x = 2 ^ d.exp - 1
  · rw [h]; refine ⟨by omega, by omega, by simp⟩
  · have h1 : (d.rexp x + 1) * 2 ^ d.mant ≤ (2 ^ d.exp - 1) * 2 ^ d.mant := Nat.mul_le_mul_right _ (by omega)
    rw [Nat.add_mul] at h1
    refine ⟨?_, ?_, ?_⟩ <;> simp [h] <;> omega

end Sys2Proof.Machine
end

