-- ==== Sys2Proof/Laws/PerInstr.lean ====
section
/-! SUPPORT. Statements for all commands, one lemma a constructor (LAWS.json names the families). -/

namespace Sys2Proof.Laws.DecodeEncode

/-- Decoding the encoded command gives it back, at its precision. -/
def Statement (i : Instr) : Prop := decode (encode i) = .ok i

theorem pdesc (p : Prec) : Statement (.pdesc p) := by cases p <;> rfl
theorem ftob (p : Prec) : Statement (.ftob p) := by cases p <;> rfl
theorem ftobs (p : Prec) : Statement (.ftobs p) := by cases p <;> rfl
theorem btof (p : Prec) : Statement (.btof p) := by cases p <;> rfl
theorem btofs (p : Prec) : Statement (.btofs p) := by cases p <;> rfl
theorem cvtn (p : Prec) : Statement (.cvtn p) := by cases p <;> rfl
theorem cvtw (p : Prec) : Statement (.cvtw p) := by cases p <;> rfl
theorem ulpd (p : Prec) : Statement (.ulpd p) := by cases p <;> rfl
theorem ulpds (p : Prec) : Statement (.ulpds p) := by cases p <;> rfl
theorem cmpu (p : Prec) : Statement (.cmpu p) := by cases p <;> rfl
theorem next (p : Prec) : Statement (.next p) := by cases p <;> rfl
theorem inspf (p : Prec) : Statement (.inspf p) := by cases p <;> rfl
theorem inspb (p : Prec) : Statement (.inspb p) := by cases p <;> rfl

end Sys2Proof.Laws.DecodeEncode
end

