-- ==== Sys2Proof/Tests/Slice0.lean ====
section
/-! SUPPORT. Tests. Expected words are the spec's: 95_test_vectors.md (its ids in the comments), 30_encoding.md for
encodings. The witnesses at the end show that the statements' hypotheses can be met, clause by clause. -/

namespace Sys2Proof.Tests

open Sys2Proof Sys2Proof.Machine

/-- The state after reset with a request on the ports. -/
def offering (cmd : CmdWord) (a b c : Word) : State :=
  { State.reset with reqValid := true, req := ⟨cmd, a, b, c⟩ }

/-- A response that waits in Q and may be offered. -/
def ready : Entry := ⟨Response.success 0x3C00, 0⟩

/-- RES of every entry of Q after a step. -/
def resAfter (s : State) : List Word :=
  match step s with
  | .next t => t.q.map fun e => e.rsp.res
  | _ => []

/-! ### WellFormed: an ill-formed term for each check -/

theorem test_wf_good : (CmdFields.mk 0x20 2 1 0 0).wellFormed = true := by decide
theorem test_wf_reserved : (CmdFields.mk 0x10 0 0 0 1).wellFormed = false := by decide
theorem test_wf_op : (CmdFields.mk 0x22 0 0 0 0).wellFormed = false := by decide
theorem test_wf_prec : (CmdFields.mk 0x10 3 0 0 0).wellFormed = false := by decide
theorem test_wf_sgn : (CmdFields.mk 0x21 0 1 0 0).wellFormed = false := by decide
theorem test_wf_src : (CmdFields.mk 0x10 0 0 1 0).wellFormed = false := by decide
theorem test_wf_one_source : (CmdFields.mk 0x40 0 0 3 0).wellFormed = false := by decide

/-! ### Decode: a word written out for each constructor (R40, R41), and one for each rejection (L2-E) -/

theorem test_decode_pdesc : decodeTableWord 32 0b0000000000000000000_00_0_10_00000001 = some (.pdesc .D) := by decide
theorem test_decode_ftob : decodeTableWord 32 0b0000000000000000000_00_0_01_00010000 = some (.ftob .S) := by decide
theorem test_decode_ftobs : decodeTableWord 32 0b0000000000000000000_00_0_00_00010001 = some (.ftobs .H) := by decide
theorem test_decode_btof : decodeTableWord 32 0b0000000000000000000_00_0_10_00010010 = some (.btof .D) := by decide
theorem test_decode_btofs : decodeTableWord 32 0b0000000000000000000_00_0_01_00010011 = some (.btofs .S) := by decide
theorem test_decode_cvtn : decodeTableWord 32 0b0000000000000000000_00_0_00_00010100 = some (.cvtn .H) := by decide
theorem test_decode_cvtw : decodeTableWord 32 0b0000000000000000000_00_0_01_00010101 = some (.cvtw .S) := by decide
theorem test_decode_ulpd : decodeTableWord 32 0b0000000000000000000_00_0_10_00100000 = some (.ulpd .D) := by decide
theorem test_decode_ulpds : decodeTableWord 32 0b0000000000000000000_00_1_01_00100000 = some (.ulpds .S) := by decide
theorem test_decode_cmpu : decodeTableWord 32 0b0000000000000000000_00_0_00_00100001 = some (.cmpu .H) := by decide
theorem test_decode_next : decodeTableWord 32 0b0000000000000000000_00_0_10_00110000 = some (.next .D) := by decide
theorem test_decode_inspf : decodeTableWord 32 0b0000000000000000000_01_0_00_01000000 = some (.inspf .H) := by decide
theorem test_decode_inspb : decodeTableWord 32 0b0000000000000000000_10_0_10_01000000 = some (.inspb .D) := by decide

/-- The name under which a word is rejected. -/
def rejection (w : CmdWord) : Option Reject :=
  match decode w with
  | .ok _ => none
  | .error r => some r

theorem test_reject_reserved : rejection 0x80000020 = some .reservedBits := by decide          -- L2-E9
theorem test_reject_op : rejection 0x22 = some .unassignedOp := by decide                      -- L2-E3
theorem test_reject_prec : rejection 0x340 = some .reservedPrec := by decide                   -- L2-E12
theorem test_reject_sgn : rejection 0xC40 = some .sgnNotAllowed := by decide                   -- L2-E13
theorem test_reject_src : rejection 0x810 = some .srcNotAllowed := by decide                   -- L2-E7
theorem test_reject_neither : rejection 0x40 = some .notOneSource := by decide                 -- L2-E10
theorem test_reject_both : rejection 0x1840 = some .notOneSource := by decide                  -- L2-E11

/-! ### Commands (95_test_vectors.md) -/

/-- The response to a request, on the constant ROM. -/
def ask (cmd : CmdWord) (a b c : Word) : Option Response := execResponse Rom.table ⟨cmd, a, b, c⟩

theorem test_pdesc_s : ask 0x101 0 0 0 = some ⟨0x10, 0x7F00170820, 0, 0, 0, 0⟩ := by decide     -- L2-P2
theorem test_ftob_snan : ask 0x10 0x7C01 0 0 = some ⟨0x10, 0x7C01, 0, 0, 0, 0⟩ := by decide     -- L2-C3
theorem test_ftob_range : ask 0x10 0x10000 0 0 = some ⟨0x5, 0, 0, 0, 0, 0⟩ := by decide         -- L2-C4
theorem test_ftobs_neg : ask 0x111 0xBF800000 0 0 = some ⟨0x10, 0xFFFFFFFFBF800000, 0, 0, 0, 0⟩ := by decide  -- L2-C6
theorem test_ftobs_pos : ask 0x11 0x7FFF 0 0 = some ⟨0x10, 0x7FFF, 0, 0, 0, 0⟩ := by decide     -- L2-C8
theorem test_btof_inf : ask 0x12 0x7C00 0 0 = some ⟨0x10, 0x7C00, 0, 0, 0, 0⟩ := by decide      -- L2-C10
theorem test_btof_range : ask 0x112 0x100000000 0 0 = some ⟨0x5, 0, 0, 0, 0, 0⟩ := by decide    -- L2-C13
theorem test_btofs_neg : ask 0x113 0xFFFFFFFFBF800000 0 0 = some ⟨0x10, 0xBF800000, 0, 0, 0, 0⟩ := by decide  -- L2-C14
theorem test_btofs_range : ask 0x13 0x8000 0 0 = some ⟨0x5, 0, 0, 0, 0, 0⟩ := by decide         -- L2-C17
theorem test_cvtn_tie : ask 0x114 0x3FF0000030000000 0 0 = some ⟨0x10, 0x3F800002, 0, 0, 0, 0⟩ := by decide   -- L2-N19
theorem test_cvtn_carry : ask 0x14 0x3F0FFC0000000000 0 0 = some ⟨0x10, 0x400, 0, 0, 0, 0⟩ := by decide       -- L2-N13
theorem test_cvtw_sub : ask 0x15 0x3FF 0 0 = some ⟨0x10, 0x3F0FF80000000000, 0, 0, 0, 0⟩ := by decide         -- L2-W2
theorem test_cvtw_nan : ask 0x115 0x7F800001 0 0 = some ⟨0x10, 0x7FF8000020000000, 0, 0, 0, 0⟩ := by decide   -- L2-W10
theorem test_ulpd_zero_crossing : ask 0x20 0x1 0x8001 0 = some ⟨0x10, 0x2, 0, 0, 0, 0⟩ := by decide           -- L2-U5
theorem test_ulpd_largest : ask 0x220 0x7FEFFFFFFFFFFFFF 0xFFEFFFFFFFFFFFFF 0
    = some ⟨0x10, 0xFFDFFFFFFFFFFFFE, 0, 0, 0, 0⟩ := by decide                                  -- L2-U10
theorem test_ulpds_neg : ask 0x420 0xBC00 0xC000 0 = some ⟨0x30, 0x400, 0, 0, 0, 0⟩ := by decide -- L2-U9
theorem test_ulpds_split : ask 0x520 0xBF800000 0x3F800000 0 = some ⟨0x10, 0x7F000000, 0, 0, 0, 0⟩ := by decide  -- L2-U7
theorem test_cmpu_equal : ask 0x121 0xBF800000 0x3F800000 0x7F000000 = some ⟨0x50, 1, 0, 0, 0, 0⟩ := by decide   -- L2-K6
theorem test_cmpu_priority : ask 0x221 0x7FF0000000000000 0x3FF0000000000000 0xFFFFFFFFFFFFFFFF
    = some ⟨0x3, 0, 0, 0, 0, 0⟩ := by decide                                                    -- L2-K9
theorem test_next_neg : ask 0x30 0x8001 0x0 0 = some ⟨0x10, 0x8000, 0, 0, 0, 0⟩ := by decide    -- L2-X8
theorem test_next_nan : ask 0x30 0x3C00 0xFD00 0 = some ⟨0x10, 0xFF00, 0, 0, 0, 0⟩ := by decide -- L2-X19
theorem test_inspf_snan : ask 0x840 0x7C01 0 0 = some ⟨0x2810, 0x7C01, 0x1F, 0x1, 0x10, 0x401⟩ := by decide   -- L2-I12
theorem test_inspf_one : ask 0xA40 0x3FF0000000000000 0 0
    = some ⟨0x2010, 0x3FF0000000000000, 0x3FF, 0, 0, 0x10000000000000⟩ := by decide             -- L2-I1
theorem test_inspb_sub : ask 0x1040 0x8001 0 0
    = some ⟨0x3310, 0x8001, 0, 1, 0xFFFFFFFFFFFFFFF1, 0xFFFFFFFFFFFFFFFE⟩ := by decide         -- L2-I3
theorem test_inspb_nan : ask 0x1140 0xFFC00001 0 0
    = some ⟨0x2B10, 0xFFC00001, 0xFF, 0x400001, 0x80, 0xFFFFFFFFFF3FFFFF⟩ := by decide          -- L2-I9
theorem test_usage : ask 0x1840 0x10000 0 0 = some ⟨0x4, 0, 0, 0, 0, 0⟩ := by decide            -- L2-E11

/-! ### Edges (95_test_vectors.md P5), assembler, pseudo-commands, wrapper -/

theorem test_edge_accepts : resAfter (offering 0x10 0x3C00 0 0) = [0x3C00] := by decide         -- P5 edge 1
theorem test_edge_stalled : resAfter { offering 0x10 0x3C00 0 0 with choice := ⟨true, false, 0⟩ } = [] := by decide
theorem test_edge_delivers : resAfter { State.reset with q := [ready], rspReady := true } = [] := by decide  -- P5 edge 8
theorem test_edge_reset : resAfter { offering 0x10 0x3C00 0 0 with inReset := true, q := [ready] } = [] := by decide  -- P5 edge 6
theorem test_latency_waits : { State.reset with q := [⟨ready.rsp, 1⟩] }.rspValid = false := by decide
theorem test_placed_word : resAfter (State.reset.withFetchWord 32 0x101) = [0x7F00170820] := by decide
theorem test_broken_duty : step { offering 0x10 1 0 0 with held := some ⟨0x10, 2, 0, 0⟩ } = .refused .requestChanged := by rfl

/-- `BTOFS.s -1`: a negative literal is its two's-complement word. -/
theorem test_assemble_negative :
    (parseRequest ['B', 'T', 'O', 'F', 'S', '.', 's', ' ', '-', '1'] >>= assemble).toOption
      = some ⟨0x113, 0xFFFFFFFFFFFFFFFF, 0, 0⟩ := by decide

theorem test_assemble_default : (assemble ⟨.cmpu, none, [⟨false, 5⟩]⟩).toOption = some ⟨0x221, 5, 0, 0⟩ := by decide

/-- P2: 0.1 narrowed to binary32 and inspected. -/
theorem test_inspn : Pseudo.run .inspn Rom.table .S 0x3FB999999999999A
    = some ⟨0x2010, 0x3DCCCCCD, 0x7B, 0x4CCCCD, 0xFFFFFFFFFFFFFFFC, 0xCCCCCD⟩ := by decide

/-- A leading space, and one before the suffix's dot, are rejected: the model's choice, log 14. -/
theorem test_spaces : parseRequest [' ', 'F', 'T', 'O', 'B', '.', 's'] = .error .unknownMnemonic ∧
    parseRequest ['F', 'T', 'O', 'B', ' ', '.', 's'] = .error .malformedLiteral := ⟨rfl, rfl⟩

theorem test_wrapper_big : wrapperBytes .big 4 0x01020304 = [1, 2, 3, 4] := by decide

/-! ### Witnesses: the hypotheses of the statements can be met, in each clause at a boundary -/

theorem witness_rejected_word : (offering 0x2010 0 0 0).breaksDuty = false ∧ (offering 0x2010 0 0 0).reqTransfers = true ∧
    rejection (offering 0x2010 0 0 0).req.cmd = some .reservedBits := by decide
theorem witness_decoded_command : (offering 0x10 0 0 0).breaksDuty = false ∧ (offering 0x10 0 0 0).reqTransfers = true ∧
    (decode (offering 0x10 0 0 0).req.cmd).toOption = some (.ftob .H) := by decide
theorem witness_missing_suffix : (AsmRequest.mk .ftob none []).suffix = none ∧
    (AsmRequest.mk .ftob none []).mnemonic ∉ [Mnemonic.ulpd, .ulpds, .cmpu, .next] := by decide
theorem witness_status : ({ err := 15, neg := true } : StatusFields).err < 16 := by decide
theorem witness_no_inspector : ∀ p, (decode 0x10).toOption ≠ some (.inspf p) ∧ (decode 0x10).toOption ≠ some (.inspb p) ∧
    (decode 0x10).toOption ≠ some (.ulpds p) ∧ (decode 0x10).toOption ≠ some (.cmpu p) := by
  rintro ⟨⟩ <;> decide
theorem witness_default_suffix : (AsmRequest.mk .next none []).mnemonic ∈ [Mnemonic.ulpd, .ulpds, .cmpu, .next] ∧
    (assemble ⟨.next, none, []⟩).toOption = some ⟨0x230, 0, 0, 0⟩ := by decide
theorem witness_same_request : (offering 0x10 1 0 0).rom = { offering 0x10 1 0 0 with q := [ready], edge := 7 }.rom ∧
    (offering 0x10 1 0 0).req = { offering 0x10 1 0 0 with q := [ready], edge := 7 }.req := ⟨rfl, rfl⟩
theorem witness_reset_edge : ∃ u, step { State.reset with inReset := true, q := [ready] } = .next u := ⟨_, rfl⟩
theorem witness_in_reset : { State.reset with inReset := true }.inReset = true ∧
    { State.reset with inReset := true }.breaksDuty = false := by decide
theorem witness_empty_queue : State.reset.q = [] := by decide
theorem witness_wrapper : 2 ^ 64 - 1 < 256 ^ 8 := by decide

/-- Encodings at the top of each precision's range, and the first word beyond it. -/
theorem witness_encoding_bounds :
    (Rom.table.row .H).Encoding 0xFFFF ∧ ¬(Rom.table.row .H).Encoding 0x10000 ∧
    (Rom.table.row .S).Encoding 0xFFFFFFFF ∧ ¬(Rom.table.row .S).Encoding 0x100000000 ∧
    (Rom.table.row .D).Encoding 0xFFFFFFFFFFFFFFFF := by decide

/-- R64's clause: -0.0 and +0.0, -infinity and +infinity are encodings that are not NaN. -/
theorem witness_keys : ∀ x ∈ [0x8000, 0x0000, 0xFC00, 0x7C00],
    (Rom.table.row .H).Encoding x ∧ (Rom.table.row .H).isNan x = false := by decide

theorem witness_rom : (offering 0x10 0xFFFF 0 0).rom = Rom.table ∧ (offering 0x10 0xFFFF 0 0).req.a.toNat < 2 ^ 16 ∧
    2 ^ 16 ≤ (offering 0x10 0x10000 0 0).req.a.toNat := by decide

/-- BTOFS.h at both ends of the signed range, and one beyond each. -/
theorem witness_btofs : (-2 ^ 15 : Int) ≤ (0xFFFFFFFFFFFF8000 : Word).toInt ∧ (0x7FFF : Word).toInt < 2 ^ 15 ∧
    (0xFFFFFFFFFFFF7FFF : Word).toInt < -2 ^ 15 ∧ (2 ^ 15 : Int) ≤ (0x8000 : Word).toInt := by decide

/-- The classes of CVTN's and CVTW's operands: a NaN, an infinity, a zero, a finite non-zero value. -/
theorem witness_conversion_classes :
    (Rom.table.row .D).isNan 0x7FF0000000000001 = true ∧ (Rom.table.row .D).isInf 0xFFF0000000000000 = true ∧
    (Rom.table.row .D).isZero 0x8000000000000000 = true ∧
    (Rom.table.row .D).isFinite 0x7FEFFFFFFFFFFFFF = true ∧ (Rom.table.row .D).isZero 0x7FEFFFFFFFFFFFFF = false ∧
    (Rom.table.row .H).isNan 0x7C01 = true ∧ (Rom.table.row .H).isInf 0x7C00 = true ∧
    (Rom.table.row .H).isFinite 0x7BFF = true ∧ (.H : Prec) ≠ .D := by decide

/-- Law 5: two operands in the order of keys, at the binary16 overflow midpoint (L2-N7, L2-N8). -/
theorem witness_monotonic : (Rom.table.row .D).isNan 0x40EFFDFFFFFFFFFF = false ∧
    (Rom.table.row .D).isNan 0x40EFFE0000000000 = false ∧
    (Rom.table.row .D).key 0x40EFFDFFFFFFFFFF ≤ (Rom.table.row .D).key 0x40EFFE0000000000 := by decide

/-- The clauses of ULPD and CMPU: finite operands, RANGE on A, RANGE on B, a negative tolerance, a NaN. -/
theorem witness_distance : (Rom.table.row .H).Encoding 0x7BFF ∧ (Rom.table.row .H).isFinite 0x7BFF = true ∧
    (Rom.table.row .H).isFinite 0xFBFF = true ∧ (Rom.table.row .H).isFinite 0x7C00 = false ∧
    2 ^ (Rom.table.row .H).total ≤ (0x10000 : Word).toNat ∧ (0 : Word).toInt ≥ 0 ∧
    (0xFFFFFFFFFFFFFFFF : Word).toInt < 0 := by decide

/-- R102 item 6: from +0.0 toward -MIN_SUB, and R121's two directions. -/
theorem witness_neighbour : (Rom.table.row .H).key 0x0 ≠ (Rom.table.row .H).key 0x8001 ∧
    (Rom.table.row .H).isFinite (nextToward (Rom.table.row .H) 0x0 0x8001) = true ∧
    (Rom.table.row .H).key 0x8001 < (Rom.table.row .H).key 0x0 ∧
    (Rom.table.row .H).key 0x7BFF < (Rom.table.row .H).key 0x7C00 := by decide

/-- The distinct values that R102 item 6 asks for. -/
theorem witness_distinct_values : (Rom.table.row .H).value 0x0 ≠ (Rom.table.row .H).value 0x8001 := by
  have h : (Rom.table.row .H).value 0x0 = .finite ((Rom.table.row .H).finiteValue 0x0) := rfl
  have h' : (Rom.table.row .H).value 0x8001 = .finite ((Rom.table.row .H).finiteValue 0x8001) := rfl
  have e0 : (Rom.table.row .H).significand 0x0 = 0 := by decide
  have e1 : (Rom.table.row .H).significand 0x8001 = 1 := by decide
  rw [h, h', Ne, Value.finite.injEq]
  unfold Desc.finiteValue
  rw [e0, e1]
  simp
  exact zpow_ne_zero _ (by norm_num)

/-- The classes of an inspected pattern (R134, R135). -/
theorem witness_inspected : (Rom.table.row .S).isFinite 0xBFC00000 = true ∧ (Rom.table.row .S).rexp 0xBFC00000 ≠ 0 ∧
    (Rom.table.row .S).isSub 0x80000001 = true ∧ (Rom.table.row .S).isZero 0x80000000 = true ∧
    (Rom.table.row .S).isFinite 0x7F800000 = false ∧ (Rom.table.row .S).isFinite 0xFFC00001 = false := by decide

/-- A full Q, whatever QDEPTH is (R175). -/
theorem witness_full_queue : { State.reset with q := List.replicate Config.qDepth ready }.q.length = Config.qDepth := by
  simp

theorem witness_room : State.reset.inReset = false ∧ State.reset.q.length < Config.qDepth := by
  simp [State.reset, Config.qDepth]

/-- An offer that is not taken (R175). -/
theorem witness_standing_offer : { State.reset with q := [ready] }.rspValid = true ∧
    { State.reset with q := [ready] }.rspReady = false ∧ { State.reset with q := [ready] }.offered = false ∧
    ∃ u, step { State.reset with q := [ready] } = .next u := ⟨by decide, by decide, by decide, _, rfl⟩

/-- A step with a script to follow. -/
theorem witness_script : ∃ u, step { State.reset with script := [⟨false, true, ⟨0x10, 0, 0, 0⟩, true, ⟨false, false, 2⟩⟩] } = .next u :=
  ⟨_, rfl⟩

/-- A run of two edges: a request is accepted, then its response is delivered. -/
theorem witness_run : ∃ t, Run (offering 0x10 0x3C00 0 0) [⟨0x10, 0x3C00, 0, 0⟩] [Response.success 0x3C00] t :=
  ⟨_, Run.edge (reqs := []) (rsps := [Response.success 0x3C00]) rfl
    ⟨_, ⟨false, false, Request.zero, true, ⟨false, false, 0⟩⟩, rfl, rfl⟩
    (Run.edge (reqs := []) (rsps := []) rfl ⟨_, ⟨false, false, Request.zero, true, ⟨false, false, 0⟩⟩, rfl, rfl⟩
      (Run.refl _))⟩

/-- An endless run that takes one request, delivers its response, and idles. -/
def once : Nat → State
  | 0 => { State.reset with reqValid := true, rspReady := true, req := ⟨0x10, 0x3C00, 0, 0⟩ }
  | 1 => { State.reset with q := [⟨Response.success 0x3C00, 0⟩], rspReady := true, edge := 1 }
  | n + 2 => { State.reset with rspReady := true, edge := n + 2 }

theorem witness_endless : Endless once ∧ (∀ n, (once n).inReset = false) ∧
    (∀ n, ∃ m, n ≤ m ∧ (once m).rspReady = true) ∧ (∀ n, ∃ m, n ≤ m ∧ (once m).q.length < Config.qDepth) ∧
    (once 0).reqValid = true ∧ (once 1).q ≠ [] := by
  have late : ∀ n, n ≤ n + 2 := fun n => by omega
  refine ⟨?_, ?_, fun n => ⟨n + 2, late n, rfl⟩, fun n => ⟨n + 2, late n, ?_⟩, rfl, by decide⟩
  · intro n
    match n with
    | 0 => exact ⟨_, ⟨false, false, Request.zero, true, ⟨false, false, 0⟩⟩, rfl, rfl⟩
    | 1 => exact ⟨_, ⟨false, false, Request.zero, true, ⟨false, false, 0⟩⟩, rfl, rfl⟩
    | n + 2 => exact ⟨_, ⟨false, false, Request.zero, true, ⟨false, false, 0⟩⟩, rfl, rfl⟩
  · intro n
    match n with
    | 0 => rfl
    | 1 => rfl
    | n + 2 => rfl
  · exact Nat.succ_pos _

theorem witness_fair : Fair once := by
  have late : ∀ n, n ≤ n + 2 := fun n => by omega
  intro _ _
  refine ⟨?_, fun _ n => ⟨n + 2, late n, rfl⟩⟩
  intro n h
  match n with
  | 0 => exact absurd rfl h
  | 1 => exact ⟨1, le_refl 1, by decide⟩
  | n + 2 => exact absurd rfl h

/-- A state with a full view in Q meets the invariant. -/
theorem witness_invariant : Invariant { State.reset with
    q := [⟨⟨0x3310, 0x8001, 0, 1, 0xFFFFFFFFFFFFFFF1, 0xFFFFFFFFFFFFFFFE⟩, 0⟩], offered := true } := by
  refine ⟨rfl, Nat.succ_le_succ (Nat.zero_le _), ?_, fun _ => ⟨_, _, rfl, rfl⟩⟩
  intro e he
  rw [List.mem_singleton] at he
  subst he
  decide

end Sys2Proof.Tests
end

section
/-! Proofs about the scope of the block (00_scope.md). -/

namespace Sys2Proof.Machine

/-- Settles O40 (R2): `accept_answers` shows that a transfer appends what `requestResult` makes of the ROM and the
request, which the two states share, and does nothing else. -/
theorem responseDependsOnlyOnTheRequest : Obligations.ResponseDependsOnlyOnTheRequest := by
  intro s s' hrom hreq
  refine ⟨responseOf (requestResult s.rom s.req), execResponse_of_result s.rom s.req, accept_answers s, ?_⟩
  rw [hrom, hreq]
  exact accept_answers s'

end Sys2Proof.Machine
end

section
/-! Proofs about the response words and the reset values (10_state.md). -/

namespace Sys2Proof.Machine

/-! ### STATUS and its fields (R13) -/

/-- A flag is read back from the bit that holds it. -/
theorem beq_one_of_eq_toNat {n : Nat} {b : Bool} (h : n = b.toNat) : (n == 1) = b := by
  rw [h]; cases b <;> rfl

/-- A STATUS word holds its fields: they take 14 bits and do not overlap, so each is read back as it was packed. -/
theorem StatusFields.unpack_pack {f : StatusFields} (h : f.err < 16) : unpack f.pack = f := by
  obtain ⟨err, ok, neg, true', iSign, iNeg, iInf, iNan, iSub, iValid⟩ := f
  change err < 16 at h
  have hok := ok.toNat_le
  have hneg := neg.toNat_le
  have htrue := true'.toNat_le
  have hsign := iSign.toNat_le
  have hineg := iNeg.toNat_le
  have hinf := iInf.toNat_le
  have hnan := iNan.toNat_le
  have hsub := iSub.toNat_le
  have hvalid := iValid.toNat_le
  simp only [unpack, pack, zext64, BitVec.toNat_ofNat, bits, bit, mk.injEq]
  refine ⟨?_, ?_, ?_, ?_, ?_, ?_, ?_, ?_, ?_, ?_⟩
  · omega
  all_goals exact beq_one_of_eq_toNat (by omega)

/-- The flags of a successful response are OK and those the command writes (R13). -/
theorem success_flags (w : Word) {f : StatusFields} (h : f.err < 16) :
    (Response.success w f).flags = { f with ok := true } :=
  StatusFields.unpack_pack (f := { f with ok := true }) h

@[simp] theorem success_viewWords (w : Word) (f : StatusFields) :
    (Response.success w f).irexp = 0 ∧ (Response.success w f).irmant = 0 ∧ (Response.success w f).iexp = 0 ∧
      (Response.success w f).imnum = 0 := ⟨rfl, rfl, rfl, rfl⟩

/-- The fields of an inspector view's STATUS (R132). -/
def viewFields (d : Desc) (v : Nat) : StatusFields :=
  { ok := true, iSign := d.sign v == 1, iNeg := d.isNegative v, iInf := d.isInf v, iNan := d.isNan v,
    iSub := d.isSub v, iValid := true }

@[simp] theorem inspect_status (d : Desc) (v : Nat) : (inspect d v).status = (viewFields d v).pack := rfl

@[simp] theorem inspect_flags (d : Desc) (v : Nat) : (inspect d v).flags = viewFields d v :=
  StatusFields.unpack_pack (Nat.zero_lt_succ 15)

/-! ### What a response writes (R13, R14) -/

/-- What R14 asks of the response to a request that decodes as `c`: it is legal, the inspector's words and flags are 0
unless `c` is an inspector command, and so are NEG unless `c` is ULPDS and TRUE unless `c` is CMPU. -/
def Response.WritesOnly (c : Except Reject Instr) (x : Response) : Prop :=
  x.legal = true ∧
  ((∀ p, c ≠ .ok (.inspf p) ∧ c ≠ .ok (.inspb p)) →
    x.irexp = 0 ∧ x.irmant = 0 ∧ x.iexp = 0 ∧ x.imnum = 0 ∧ bits x.status.toNat 63 8 = 0) ∧
  ((∀ p, c ≠ .ok (.ulpds p)) → x.flags.neg = false) ∧
  ((∀ p, c ≠ .ok (.cmpu p)) → x.flags.true' = false)

section Writes

variable {c : Except Reject Instr}

/-- An error response holds its code and nothing else (R151), whatever the command. -/
theorem error_writesOnly (e : Err) : (Response.error e).WritesOnly c := by
  cases e <;> exact ⟨by decide, fun _ => by decide, fun _ => by decide, fun _ => by decide⟩

/-- A successful response without a view may have one of NEG and TRUE set, NEG only for ULPDS (R100) and TRUE only for
CMPU (R103). -/
theorem success_writesOnly (w : Word) {neg true' : Bool} (hone : (neg && true') = false)
    (hneg : (∀ p, c ≠ .ok (.ulpds p)) → neg = false) (htrue : (∀ p, c ≠ .ok (.cmpu p)) → true' = false) :
    (Response.success w { neg, true' }).WritesOnly c := by
  have hf := success_flags w (f := { neg, true' }) (Nat.zero_lt_succ 15)
  have hview : ∀ neg true' : Bool, bits (StatusFields.pack { ok := true, neg, true' }).toNat 63 8 = 0 := by decide
  refine ⟨?_, fun _ => ⟨rfl, rfl, rfl, rfl, hview neg true'⟩, fun hc => ?_, fun hc => ?_⟩
  · simp [Response.legal, hf, hone]
  · rw [hf]
    exact hneg hc
  · rw [hf]
    exact htrue hc

/-- A response that writes RES and OK only is allowed to every command. -/
theorem plain_writesOnly (w : Word) : (Response.success w).WritesOnly c :=
  success_writesOnly w (neg := false) (true' := false) rfl (fun _ => rfl) fun _ => rfl

/-- An inspector view is the response of an inspector command; it has neither NEG nor TRUE (R132). -/
theorem inspect_writesOnly (d : Desc) (v : Nat) (h : ∃ p, c = .ok (.inspf p) ∨ c = .ok (.inspb p)) :
    (inspect d v).WritesOnly c := by
  refine ⟨?_, fun hc => ?_, fun _ => ?_, fun _ => ?_⟩
  · simp [Response.legal, viewFields, Desc.isNegative]
  · obtain ⟨p, hp⟩ := h
    exact absurd hp (not_or.mpr (hc p))
  · rw [inspect_flags, viewFields]
  · rw [inspect_flags, viewFields]

/-- A command that reads an operand answers with that operand's error or goes on with its value. -/
theorem bind_writesOnly {α : Type} (m : Except Err α) {k : α → Except Err Response}
    (h : ∀ v, (responseOf (k v)).WritesOnly c) : (responseOf (m >>= k)).WritesOnly c := by
  cases m with
  | ok v => exact h v
  | error e => exact error_writesOnly e

/-- The unsigned ULP distance is not negative: it is 0, a sum of such distances, or an absolute value (R100). -/
theorem ulpSteps_unsigned_nonneg (d : Desc) (depth a b : Nat) : 0 ≤ ulpSteps d false depth a b := by
  induction depth generalizing a b with
  | zero => exact le_refl 0
  | succ n ih =>
    unfold ulpSteps
    split
    · exact le_refl 0
    · split
      · exact ih b a
      · split
        · exact add_nonneg (ih a d.signMask) (ih 0 b)
        · exact abs_nonneg _

/-- ULPD's and ULPDS's response: NEG is set only with SGN = 1, which is ULPDS (R100). -/
theorem ulpd_writesOnly (d : Desc) (signed : Bool) (a b : Word)
    (h : signed = true → ∃ p, c = .ok (.ulpds p)) : (responseOf (ulpd d signed a b)).WritesOnly c := by
  refine bind_writesOnly _ fun x => bind_writesOnly _ fun y => ?_
  split
  · exact error_writesOnly _
  · refine success_writesOnly _ (true' := false) (Bool.and_false _) (fun hc => ?_) fun _ => rfl
    cases signed with
    | true =>
      obtain ⟨p, hp⟩ := h rfl
      exact absurd hp (hc p)
    | false => exact decide_eq_false (not_lt.mpr (ulpSteps_unsigned_nonneg d 4 x y))

/-- CMPU's response (R103). -/
theorem cmpu_writesOnly (d : Desc) (a b tol : Word) (h : ∃ p, c = .ok (.cmpu p)) :
    (responseOf (cmpu d a b tol)).WritesOnly c := by
  obtain ⟨p, hp⟩ := h
  refine bind_writesOnly _ fun x => bind_writesOnly _ fun y => ?_
  dsimp only
  split
  · exact error_writesOnly _
  · split
    · exact error_writesOnly _
    · exact success_writesOnly _ (neg := false) rfl (fun _ => rfl) fun hc => absurd hp (hc p)

/-- CVTN's response writes RES and OK only, at every precision (R84). -/
theorem cvtn_writesOnly (rom : Rom) (p : Prec) (a : Word) : (cvtn rom p a).WritesOnly c := by
  cases p <;> exact plain_writesOnly _

end Writes

/-- Every command writes no more than R13 allows it. -/
theorem commandResult_writesOnly (i : Instr) (rom : Rom) (r : Request) :
    (responseOf (commandResult i rom r)).WritesOnly (.ok i) := by
  cases i with
  | pdesc p => exact plain_writesOnly _
  | ftob p | ftobs p | btof p | btofs p | cvtw p => exact bind_writesOnly _ fun _ => plain_writesOnly _
  | cvtn p => exact cvtn_writesOnly rom p r.a
  | ulpd p => exact ulpd_writesOnly _ false _ _ fun h => nomatch h
  | ulpds p => exact ulpd_writesOnly _ true _ _ fun _ => ⟨p, rfl⟩
  | cmpu p => exact cmpu_writesOnly _ _ _ _ ⟨p, rfl⟩
  | next p => exact bind_writesOnly _ fun _ => bind_writesOnly _ fun _ => plain_writesOnly _
  | inspf p =>
    exact bind_writesOnly _ fun _ => bind_writesOnly _ fun _ => inspect_writesOnly _ _ ⟨p, .inl rfl⟩
  | inspb p => exact bind_writesOnly _ fun _ => inspect_writesOnly _ _ ⟨p, .inr rfl⟩

/-- A request is answered with what its command writes, or with the error of a word that names none (R53). -/
theorem requestResult_writesOnly (rom : Rom) (r : Request) :
    (responseOf (requestResult rom r)).WritesOnly (decode r.cmd) := by
  unfold requestResult
  cases decode r.cmd with
  | ok i => exact commandResult_writesOnly i rom r
  | error e => exact error_writesOnly _

/-- Settles O8 (R14): `execResponse_of_result` gives the response, and each command's result is an error, a success
without a view (`success_writesOnly`) or an inspector view (`inspect_writesOnly`). -/
theorem everyResponseIsLegal : Obligations.EveryResponseIsLegal :=
  fun q => ⟨_, execResponse_of_result Rom.table q, requestResult_writesOnly Rom.table q⟩

/-! ### Reset (R19) -/

/-- An edge in reset empties Q and leaves the ROM as it is. -/
theorem step_inReset {s u : State} (hr : s.inReset = true) (h : step s = .next u) : u.q = [] ∧ u.rom = s.rom := by
  obtain ⟨-, ⟨-, rfl⟩ | ⟨hn, -, -⟩ | ⟨hn, -, -⟩⟩ := step_cases h
  · simp
  · simp [hr] at hn
  · simp [hr] at hn

/-- In reset neither channel is ready or valid. -/
theorem outputs_inReset {s : State} (hr : s.inReset = true) : s.reqReady = false ∧ s.rspValid = false := by
  simp [State.reqReady, State.rspValid, hr]

/-- An empty queue offers no response. -/
theorem rspValid_of_q_nil {s : State} (hq : s.q = []) : s.rspValid = false := by
  simp [State.rspValid, hq]

/-- Settles O9 (R19), row by row of the table of reset values. -/
theorem resetLeavesTheStatedValues : Obligations.ResetLeavesTheStatedValues :=
  ⟨rfl, rfl, fun _ _ => step_inReset, State.drive_inReset, fun _ => outputs_inReset, fun _ => rspValid_of_q_nil⟩

end Sys2Proof.Machine
end

section
/-! Proofs about the command words, the assembler and the pseudo-commands (30_encoding.md). -/

namespace Sys2Proof.Machine

/-! ### The fields of a command word as integers (R40) -/

section Fields

variable (w : CmdWord)

theorem ofWord_op_toNat : (CmdFields.ofWord w).op.toNat = w.toNat % 256 := by
  simp [CmdFields.ofWord]

theorem ofWord_prec_toNat : (CmdFields.ofWord w).prec.toNat = w.toNat / 256 % 4 := by
  simp [CmdFields.ofWord, Nat.shiftRight_eq_div_pow]

theorem ofWord_sgn_toNat : (CmdFields.ofWord w).sgn.toNat = w.toNat / 1024 % 2 := by
  simp [CmdFields.ofWord, Nat.shiftRight_eq_div_pow]

theorem ofWord_src_toNat : (CmdFields.ofWord w).src.toNat = w.toNat / 2048 % 4 := by
  simp [CmdFields.ofWord, Nat.shiftRight_eq_div_pow]

theorem ofWord_reserved_toNat : (CmdFields.ofWord w).reserved.toNat = w.toNat / 8192 := by
  have hw := w.isLt
  simp only [CmdFields.ofWord, BitVec.extractLsb'_toNat, Nat.shiftRight_eq_div_pow]
  omega

end Fields

/-! ### When a word's fields fail each check of R46 -/

section Checks

variable (f : CmdFields)

theorem reservedClear_eq_false_iff : f.reservedClear = false ↔ f.reserved.toNat ≠ 0 := by
  simp [CmdFields.reservedClear, ← BitVec.toNat_inj]

theorem opAssigned_eq_false_iff : f.opAssigned = false ↔
    f.op.toNat ∉ [0x01, 0x10, 0x11, 0x12, 0x13, 0x14, 0x15, 0x20, 0x21, 0x30, 0x40] := by
  simp [CmdFields.opAssigned, assignedOps, ← BitVec.toNat_inj]

theorem precOf_eq_none_iff (pr : BitVec 2) : precOf pr = none ↔ pr.toNat = 3 := by
  revert pr; decide

theorem code_of_precOf {pr : BitVec 2} {p : Prec} (h : precOf pr = some p) : p.code = pr.toNat := by
  revert pr; cases p <;> decide

theorem sgnAllowed_eq_false_iff : f.sgnAllowed = false ↔ f.sgn.toNat = 1 ∧ f.op.toNat ≠ 0x20 := by
  have hsgn := f.sgn.isLt
  simp only [CmdFields.sgnAllowed, Bool.or_eq_false_iff, beq_eq_false_iff_ne, ne_eq, ← BitVec.toNat_inj]
  change f.sgn.toNat ≠ 0 ∧ f.op.toNat ≠ 0x20 ↔ _
  omega

theorem srcAllowed_eq_false_iff : f.srcAllowed = false ↔ f.src.toNat ≠ 0 ∧ f.op.toNat ≠ 0x40 := by
  simp [CmdFields.srcAllowed, ← BitVec.toNat_inj]

theorem oneSource_eq_false_iff :
    f.oneSource = false ↔ f.op.toNat = 0x40 ∧ (f.src.toNat = 0 ∨ f.src.toNat = 3) := by
  have hsrc := f.src.isLt
  simp only [CmdFields.oneSource, Bool.or_eq_false_iff, bne_eq_false_iff_eq, beq_eq_false_iff_ne, ne_eq,
    ← BitVec.toNat_inj]
  change f.op.toNat = 0x40 ∧ f.src.toNat ≠ 1 ∧ f.src.toNat ≠ 2 ↔ _
  omega

end Checks

/-! ### The rows of the opcode map (R41) -/

/-- The rows are all the combinations of OP, SGN and SRC that R41, R43 and R44 allow. -/
theorem opRows_cover : ∀ op ∈ assignedOps, ∀ (sgn : BitVec 1) (src : BitVec 2),
    (sgn = 0 ∨ op = 0x20) → (src = 0 ∨ op = 0x40) → (op ≠ 0x40 ∨ src = 1 ∨ src = 2) →
    ∃ row ∈ opRows, row.op = op ∧ row.sgn = sgn ∧ row.src = src := by decide

/-- Fields that pass R46's checks of OP, SGN and SRC are those of a row. -/
theorem exists_row {f : CmdFields} (hop : f.opAssigned = true) (hsgn : f.sgnAllowed = true)
    (hsrc : f.srcAllowed = true) (hone : f.oneSource = true) :
    ∃ row ∈ opRows, row.op = f.op ∧ row.sgn = f.sgn ∧ row.src = f.src := by
  refine opRows_cover f.op ?_ f.sgn f.src ?_ ?_ ?_
  · simpa [CmdFields.opAssigned] using hop
  · simpa [CmdFields.sgnAllowed] using hsgn
  · simpa [CmdFields.srcAllowed] using hsrc
  · simpa [CmdFields.oneSource] using hone

/-- No two rows share OP, SGN and SRC, so the fields of a row select it. -/
theorem selectCommand_of_row {row : OpRow} (hrow : row ∈ opRows) {f : CmdFields} (hop : row.op = f.op)
    (hsgn : row.sgn = f.sgn) (hsrc : row.src = f.src) (p : Prec) : selectCommand f p = some (row.make p) := by
  unfold selectCommand
  rw [← hop, ← hsgn, ← hsrc]
  fin_cases hrow <;> rfl

/-- The command word of a row's command, by the row's fields (R40). -/
theorem encode_row {row : OpRow} (hrow : row ∈ opRows) (p : Prec) : (encode (row.make p)).toNat =
    row.op.toNat + p.code * 256 + row.sgn.toNat * 1024 + row.src.toNat * 2048 := by
  fin_cases hrow <;> cases p <;> rfl

/-! ### Decode and encode (R46, R53) -/

theorem decode_encode (i : Instr) : decode (encode i) = .ok i := by
  cases i with
  | pdesc p => exact Laws.DecodeEncode.pdesc p
  | ftob p  => exact Laws.DecodeEncode.ftob p
  | ftobs p => exact Laws.DecodeEncode.ftobs p
  | btof p  => exact Laws.DecodeEncode.btof p
  | btofs p => exact Laws.DecodeEncode.btofs p
  | cvtn p  => exact Laws.DecodeEncode.cvtn p
  | cvtw p  => exact Laws.DecodeEncode.cvtw p
  | ulpd p  => exact Laws.DecodeEncode.ulpd p
  | ulpds p => exact Laws.DecodeEncode.ulpds p
  | cmpu p  => exact Laws.DecodeEncode.cmpu p
  | next p  => exact Laws.DecodeEncode.next p
  | inspf p => exact Laws.DecodeEncode.inspf p
  | inspb p => exact Laws.DecodeEncode.inspb p

/-- Settles O1 (R40, R41), command by command. -/
theorem decodeInvertsEncode : Obligations.DecodeInvertsEncode := decode_encode

/-- Settles O2 (R40, R41): each word written out is the encoding of its command. -/
theorem writtenWordsDecode : Obligations.WrittenWordsDecode :=
  ⟨decode_encode (.pdesc .S), decode_encode (.btofs .D), decode_encode (.cvtn .H), decode_encode (.ulpds .H),
    decode_encode (.cmpu .D), decode_encode (.next .S), decode_encode (.inspf .H), decode_encode (.inspb .D)⟩

/-- Fields that pass every check of R46 decode to the command of their row, at the precision PREC names. -/
theorem decode_of_checks {f : CmdFields} {p : Prec} (hres : f.reservedClear = true) (hop : f.opAssigned = true)
    (hp : precOf f.prec = some p) (hsgn : f.sgnAllowed = true) (hsrc : f.srcAllowed = true)
    (hone : f.oneSource = true) :
    ∃ row ∈ opRows, row.op = f.op ∧ row.sgn = f.sgn ∧ row.src = f.src ∧ f.decode = .ok (row.make p) := by
  obtain ⟨row, hrow, hro, hrs, hrc⟩ := exists_row hop hsgn hsrc hone
  refine ⟨row, hrow, hro, hrs, hrc, ?_⟩
  simp [CmdFields.decode, hres, hop, hp, hsgn, hsrc, hone, selectCommand_of_row hrow hro hrs hrc]

theorem accept_of_decode_ok {s : State} {i : Instr} (h : decode s.req.cmd = .ok i) : s.accept = exec i s := by
  simp [State.accept, h]

theorem accept_of_decode_error {s : State} {r : Reject} (h : decode s.req.cmd = .error r) :
    s.accept = raise (rejectError r) s := by
  simp [State.accept, h]

/-- Only the last check raises USAGE (R46). -/
theorem rejectError_eq (r : Reject) : rejectError r = if r = .notOneSource then .usage else .illegal := by
  cases r <;> rfl

/-- Settles O3 (R46): the checks are integer conditions on the word's fields, and fields that pass them all are those
of a row (`decode_of_checks`). -/
theorem decodeChecksInOrder : Obligations.DecodeChecksInOrder := by
  refine ⟨fun w => ?_, fun s r h => ?_, fun s i h => accept_of_decode_ok h⟩
  · dsimp only
    rw [← ofWord_op_toNat, ← ofWord_prec_toNat, ← ofWord_sgn_toNat, ← ofWord_src_toNat, ← ofWord_reserved_toNat]
    unfold decode
    generalize CmdFields.ofWord w = f
    simp only [← reservedClear_eq_false_iff, ← opAssigned_eq_false_iff, ← precOf_eq_none_iff f.prec,
      ← sgnAllowed_eq_false_iff, ← srcAllowed_eq_false_iff, ← oneSource_eq_false_iff]
    by_cases hres : f.reservedClear = false
    · simp [CmdFields.decode, hres]
    by_cases hop : f.opAssigned = false
    · simp [CmdFields.decode, hres, hop]
    by_cases hpr : precOf f.prec = none
    · simp [CmdFields.decode, hres, hop, hpr]
    obtain ⟨p, hp⟩ := Option.ne_none_iff_exists'.mp hpr
    by_cases hsgn : f.sgnAllowed = false
    · simp [CmdFields.decode, hres, hop, hp, hsgn]
    by_cases hsrc : f.srcAllowed = false
    · simp [CmdFields.decode, hres, hop, hp, hsgn, hsrc]
    by_cases hone : f.oneSource = false
    · simp [CmdFields.decode, hres, hop, hp, hsgn, hsrc, hone]
    rw [if_neg hres, if_neg hop, if_neg hpr, if_neg hsgn, if_neg hsrc, if_neg hone]
    rw [Bool.not_eq_false] at hres hop hsgn hsrc hone
    obtain ⟨row, hrow, hro, hrs, hrc, hdec⟩ := decode_of_checks hres hop hp hsgn hsrc hone
    exact ⟨row, hrow, p, congrArg _ hro, congrArg _ hrs, congrArg _ hrc, code_of_precOf hp, hdec⟩
  · rw [← rejectError_eq]
    exact accept_of_decode_error h

/-- The words that decode are the encodings of the rows' commands. -/
theorem decode_ok_row {w : CmdWord} {i : Instr} (h : decode w = .ok i) :
    ∃ row ∈ opRows, ∃ p, i = row.make p ∧ w = encode i := by
  have checks := decodeChecksInOrder.1 w
  simp only [h, Except.ok.injEq, reduceCtorEq] at checks
  split_ifs at checks with hres
  obtain ⟨row, hrow, p, hop, hsgn, hsrc, hpr, rfl⟩ := checks
  refine ⟨row, hrow, p, rfl, BitVec.eq_of_toNat_eq ?_⟩
  rw [encode_row hrow p]
  omega

/-- Both sources or neither, at each precision, are the words that give USAGE (R44, R53). -/
theorem decode_notOneSource_iff (w : CmdWord) :
    decode w = .error .notOneSource ↔ w ∈ [0x0040, 0x0140, 0x0240, 0x1840, 0x1940, 0x1A40] := by
  refine ⟨fun h => ?_, fun h => ?_⟩
  · have checks := decodeChecksInOrder.1 w
    simp only [h, Except.error.injEq, reduceCtorEq, and_false, exists_false] at checks
    split_ifs at checks with hres hop hpr hsgn hsrc hone
    simp only [List.mem_cons, List.not_mem_nil, or_false]
    bv_omega
  · fin_cases h <;> rfl

/-- Settles O4 (R53): a word that decodes is the encoding of its command (`decode_ok_row`), the words that fail the last
check are six (`decode_notOneSource_iff`), and every rejection raises its error (`accept_of_decode_error`). -/
theorem exactlyThirtyNineLegalWords : Obligations.ExactlyThirtyNineLegalWords := by
  refine ⟨fun w i => ⟨fun h => ?_, fun h => h ▸ decode_encode i⟩, rfl, by decide, fun i => ?_,
    decode_notOneSource_iff, fun s r h => ?_⟩
  · obtain ⟨_, _, _, _, hw⟩ := decode_ok_row h
    exact hw
  · obtain ⟨row, hrow, p, rfl, -⟩ := decode_ok_row (decode_encode i)
    refine List.mem_flatMap.mpr ⟨row, hrow, ?_⟩
    cases p <;> simp
  · rw [accept_of_decode_error h]
    cases r <;> rfl

/-! ### The assembler (R55, R56) -/

theorem defaultPrec_eq_some_iff (m : Mnemonic) (p : Prec) :
    m.defaultPrec = some p ↔ p = .D ∧ m ∈ [.ulpd, .ulpds, .cmpu, .next] := by
  cases m <;> cases p <;> decide

/-- A mnemonic with a default precision, written without a suffix, means its form at that precision (R56). -/
theorem assemble_default {m : Mnemonic} {p : Prec} (h : m.defaultPrec = some p) (operands : List Literal) :
    assemble ⟨m, none, operands⟩ = assemble ⟨m, some p, operands⟩ := by
  simp only [assemble, h]

theorem assemble_missingSuffix {m : Mnemonic} (h : m.defaultPrec = none) (operands : List Literal) :
    assemble ⟨m, none, operands⟩ = .error .missingSuffix := by
  simp only [assemble, h]
  rfl

/-- A step of the assembler that emits a request has a result, which the next step reads. -/
theorem exists_of_bind_ok {ε α β : Type} {m : Except ε α} {k : α → Except ε β} {b : β} (h : m >>= k = .ok b) :
    ∃ a, m = .ok a ∧ k a = .ok b := by
  cases m with
  | ok a => exact ⟨a, rfl, h⟩
  | error e => nomatch h

/-- With a suffix, the command emitted is that of the mnemonic at the precision written, whatever the operands. -/
theorem assemble_cmd {m : Mnemonic} {p : Prec} {operands : List Literal} {q : Request}
    (h : assemble ⟨m, some p, operands⟩ = .ok q) : q.cmd = encode (m.instr p) := by
  obtain ⟨p', hp, h⟩ := exists_of_bind_ok h
  obtain rfl : p = p' := Except.ok.inj hp
  dsimp only at h
  split at h
  all_goals
    obtain ⟨⟨la, lb, lc⟩, -, h⟩ := exists_of_bind_ok h
    obtain ⟨a, -, h⟩ := exists_of_bind_ok h
    obtain ⟨b, -, h⟩ := exists_of_bind_ok h
    obtain ⟨c, -, h⟩ := exists_of_bind_ok h
    rw [← Except.ok.inj h]

/-- Settles O5 (R55, R56), by whether a suffix is written and whether the mnemonic has a default. -/
theorem assemblerEmitsTheCommand : Obligations.AssemblerEmitsTheCommand := by
  rintro ⟨m, suffix, operands⟩
  refine ⟨fun q h => ?_, fun h => ?_, fun hs h => ?_⟩
  · cases suffix with
    | some p => exact ⟨p, assemble_cmd h ▸ decode_encode _, .inl rfl⟩
    | none =>
      cases hm : m.defaultPrec with
      | none =>
        rw [assemble_missingSuffix hm] at h
        nomatch h
      | some p =>
        rw [assemble_default hm] at h
        exact ⟨p, assemble_cmd h ▸ decode_encode _, .inr ⟨rfl, ((defaultPrec_eq_some_iff m p).mp hm).1⟩⟩
  · exact assemble_default ((defaultPrec_eq_some_iff m .D).mpr ⟨rfl, h⟩) operands
  · obtain rfl : suffix = none := hs
    refine assemble_missingSuffix (Option.eq_none_iff_forall_ne_some.mpr fun p hp => ?_) operands
    exact h ((defaultPrec_eq_some_iff m p).mp hp).2

/-! ### Pseudo-commands (R57) -/

/-- The response to an encoded command. -/
theorem execResponse_encode (i : Instr) (rom : Rom) (a b c : Word) :
    execResponse rom ⟨encode i, a, b, c⟩ = some (responseOf (commandResult i rom ⟨encode i, a, b, c⟩)) := by
  rw [execResponse_of_result]
  simp [requestResult, decode_encode]

/-- A pseudo-command whose first request succeeds is its second request on the first RES (R57). -/
theorem run_of_success {ps : Pseudo} {rom : Rom} {p : Prec} {a w : Word}
    (h : execResponse rom ⟨encode (ps.expansion p).1, a, 0, 0⟩ = some (.success w)) :
    ps.run rom p a = execResponse rom ⟨encode (ps.expansion p).2, w, 0, 0⟩ := by
  have hf : (Response.success w).flags.err = 0 := congrArg _ (success_flags w (f := {}) (Nat.zero_lt_succ 15))
  simp only [Pseudo.run, h, Option.bind_eq_bind, Option.bind_some, hf, ne_eq, not_true, if_false,
    success_res]

/-- Every word is an encoding of binary64 (R47). -/
theorem typed_D (w : Word) : typed (Rom.table.row .D) w = .ok w.toNat :=
  typed_of_lt (Nat.zero_lt_succ 63) w.isLt

/-- CVTN.d returns its operand bit for bit (R84). -/
theorem execResponse_cvtn_D (a : Word) : execResponse Rom.table ⟨encode (.cvtn .D), a, 0, 0⟩ = some (.success a) :=
  execResponse_encode (.cvtn .D) Rom.table a 0 0

/-- BTOF.d returns its operand (R82). -/
theorem execResponse_btof_D (a : Word) : execResponse Rom.table ⟨encode (.btof .D), a, 0, 0⟩ = some (.success a) := by
  rw [execResponse_encode, commandResult, btof, typed_D]
  simp [zext64]

/-- CVTW.d returns its operand (R86). -/
theorem execResponse_cvtw_D (a : Word) : execResponse Rom.table ⟨encode (.cvtw .D), a, 0, 0⟩ = some (.success a) := by
  rw [execResponse_encode, commandResult, cvtw, typed_D]
  simp [zext64]

/-- Settles O6 (R57): at p = D the first command of each expansion returns its operand, so the second runs on it. -/
theorem pseudoCommandsExpand : Obligations.PseudoCommandsExpand := by
  refine ⟨fun ps rom p a => ?_, fun p => ⟨rfl, rfl, rfl⟩, fun a => ⟨?_, ?_, ?_⟩⟩
  · refine ⟨_, execResponse_encode _ _ _ _ _, ?_⟩
    simp [Pseudo.run, execResponse_encode]
  · exact run_of_success (ps := .ftobn) (execResponse_cvtn_D a)
  · exact run_of_success (ps := .inspn) (execResponse_cvtn_D a)
  · rw [run_of_success (ps := .btofw) (execResponse_btof_D a), execResponse_btof_D]
    exact execResponse_cvtw_D a

end Sys2Proof.Machine
end

section
/-! Proofs about the descriptor ROM, the fields of an encoding and its ordering key (40_precision.md). -/

namespace Sys2Proof.Machine

/-! ### The value of a key (R64, R66)

Every finite value is an integer number of units of the least subnormal's value. Counted so, the value of a magnitude
grows with it across the exponents, and the value of a key is the odd continuation of that count. -/

namespace Desc

variable {d : Desc}

/-- The value of exponent field `e` and mantissa field `f`, in units of `MIN_SUB`'s value (R66). -/
def fieldUnits (d : Desc) (e f : Nat) : Nat :=
  if e = 0 then f else (2 ^ d.mant + f) * 2 ^ (e - 1)

@[simp] theorem fieldUnits_zero (f : Nat) : d.fieldUnits 0 f = f := rfl

@[simp] theorem fieldUnits_succ (e f : Nat) : d.fieldUnits (e + 1) f = (2 ^ d.mant + f) * 2 ^ e := rfl

/-- Within one exponent the value grows with the mantissa. -/
theorem fieldUnits_lt_succ_mant (e f : Nat) : d.fieldUnits e f < d.fieldUnits e (f + 1) := by
  cases e with
  | zero => simp
  | succ e => simp only [fieldUnits_succ]; gcongr; omega

/-- Every value of an exponent lies below the least value of the next. -/
theorem fieldUnits_lt_next_exp (e : Nat) {f : Nat} (hf : f < 2 ^ d.mant) :
    d.fieldUnits e f < d.fieldUnits (e + 1) 0 := by
  cases e with
  | zero => simpa using hf
  | succ e =>
    simp only [fieldUnits_succ]
    calc (2 ^ d.mant + f) * 2 ^ e < (2 ^ d.mant + 2 ^ d.mant) * 2 ^ e := by gcongr
      _ = (2 ^ d.mant + 0) * 2 ^ (e + 1) := by ring

/-- The value of a magnitude, in units of `MIN_SUB`'s value (R64, R66). -/
def magUnits (d : Desc) (g : Nat) : Nat := d.fieldUnits (g / 2 ^ d.mant) (g % 2 ^ d.mant)

theorem magUnits_of_fields (e : Nat) {f : Nat} (hf : f < 2 ^ d.mant) :
    d.magUnits (e * 2 ^ d.mant + f) = d.fieldUnits e f := by
  rw [magUnits, Nat.mul_comm, Nat.mul_add_div (by positivity), Nat.div_eq_of_lt hf, Nat.add_zero,
    Nat.mul_add_mod, Nat.mod_eq_of_lt hf]

/-- A larger magnitude has a larger value: the next one is in the same exponent or begins the next. -/
theorem magUnits_strictMono (d : Desc) : StrictMono d.magUnits := by
  refine strictMono_nat_of_lt_succ fun g => ?_
  have hf : g % 2 ^ d.mant < 2 ^ d.mant := Nat.mod_lt _ (by positivity)
  have hg : g = g / 2 ^ d.mant * 2 ^ d.mant + g % 2 ^ d.mant := (Nat.div_add_mod' g _).symm
  generalize g / 2 ^ d.mant = e at hg
  generalize g % 2 ^ d.mant = f at hf hg
  subst hg
  rw [magUnits_of_fields e hf, Nat.add_assoc]
  by_cases hlast : f + 1 < 2 ^ d.mant
  · rw [magUnits_of_fields e hlast]
    exact fieldUnits_lt_succ_mant e f
  · have hcarry : e * 2 ^ d.mant + (f + 1) = (e + 1) * 2 ^ d.mant + 0 := by
      rw [show f + 1 = 2 ^ d.mant by omega]; ring
    rw [hcarry, magUnits_of_fields (e + 1) (by positivity)]
    exact fieldUnits_lt_next_exp e hf

/-- The value of a key of a finite encoding (R64, R66). -/
def keyValue (d : Desc) (k : Int) : ℚ :=
  k.sign * d.magUnits k.natAbs * (2 : ℚ) ^ (1 - d.bias - d.mant : Int)

@[simp] theorem keyValue_neg (k : Int) : d.keyValue (-k) = -d.keyValue k := by
  simp [keyValue]

/-- The value of a non-negative key is that of the magnitude; at 0 both are 0. -/
theorem keyValue_natCast (g : Nat) :
    d.keyValue g = d.magUnits g * (2 : ℚ) ^ (1 - d.bias - d.mant : Int) := by
  cases g with
  | zero => simp [keyValue, magUnits]
  | succ g => rw [keyValue, Int.natAbs_natCast, Int.sign_natCast_of_ne_zero g.succ_ne_zero, Int.cast_one, one_mul]

/-- A larger key has a larger value (R64): the values of magnitudes grow, and the negative keys mirror them. -/
theorem keyValue_strictMono (d : Desc) : StrictMono d.keyValue := by
  refine strictMono_of_odd_strictMonoOn_nonneg (fun k => keyValue_neg k) fun k hk l hl hkl => ?_
  lift k to ℕ using hk
  lift l to ℕ using hl
  rw [keyValue_natCast, keyValue_natCast]
  have hunits : d.magUnits k < d.magUnits l := d.magUnits_strictMono (by exact_mod_cast hkl)
  gcongr

/-! ### The value of an encoding, by its key -/

/-- The significand and the scale of an encoding count units of `MIN_SUB`'s value (R66). -/
theorem significand_mul_scale (d : Desc) (x : Nat) : (d.significand x : ℚ) * (2 : ℚ) ^ d.scale x =
    d.fieldUnits (d.rexp x) (d.rmant x) * (2 : ℚ) ^ (1 - d.bias - d.mant : Int) := by
  unfold significand scale
  cases d.rexp x with
  | zero => simp
  | succ e =>
    have hscale : ((e + 1 : ℕ) : Int) - d.bias - d.mant = e + (1 - d.bias - d.mant) := by push_cast; ring
    rw [if_neg e.succ_ne_zero, if_neg e.succ_ne_zero, hscale, zpow_add₀ two_ne_zero, zpow_natCast, fieldUnits_succ]
    push_cast
    ring

/-- The value of a finite encoding is the value of its key (R64, R66). -/
theorem finiteValue_eq_keyValue (hd : d.Wf) {x : Nat} (hx : d.Encoding x) :
    d.finiteValue x = d.keyValue (d.key x) := by
  obtain ⟨hmag, -, hmant⟩ := mag_fields hd x
  have habs : (d.significand x : ℚ) * (2 : ℚ) ^ d.scale x = d.keyValue (d.mag x) := by
    rw [significand_mul_scale, keyValue_natCast, hmag, magUnits_of_fields _ hmant]
  obtain ⟨-, hsign, -⟩ := sign_mag hd hx
  rw [finiteValue, mul_assoc, habs]
  rcases key_cases d x with ⟨hs, hk⟩ | ⟨hs, hk⟩
  · rw [hk, hs, keyValue_neg]; ring
  · rw [hk, show d.sign x = 0 by omega]; ring

/-- The magnitude of the infinities: all ones above a mantissa of 0 (R63, R64). -/
theorem inf_eq (d : Desc) : d.inf = (2 ^ d.exp - 1) * 2 ^ d.mant := by
  rw [inf, Nat.shiftLeft_eq]

/-- What an encoding that is not NaN stands for, by its key: the infinities lie at both ends, and between them the value
is that of the key (R64, R66). -/
theorem value_by_key (hd : d.Wf) {x : Nat} (hx : d.Encoding x) (hn : d.isNan x = false) :
    (d.key x = -(d.inf : Int) ∧ d.value x = .infinite true) ∨
    (-(d.inf : Int) < d.key x ∧ d.key x < d.inf ∧ d.value x = .finite (d.keyValue (d.key x))) ∨
    (d.key x = d.inf ∧ d.value x = .infinite false) := by
  obtain ⟨hnan, hinf, -⟩ := class_of_mag hd x
  rw [← inf_eq] at hnan hinf
  have hle : d.mag x ≤ d.inf := by
    by_contra hgt
    exact Bool.false_ne_true (hn.symm.trans (hnan.mpr (by omega)))
  by_cases hi : d.isInf x = true
  · have hmag := hinf.mp hi
    rcases key_cases d x with ⟨hs, hk⟩ | ⟨hs, hk⟩
    · exact .inl ⟨by rw [hk, hmag], by simp [value, hn, hi, isNegative, hs]⟩
    · exact .inr (.inr ⟨by rw [hk, hmag], by simp [value, hn, hi, isNegative, hs]⟩)
  · have hlt : d.mag x < d.inf := lt_of_le_of_ne hle fun h => hi (hinf.mpr h)
    have hv : d.value x = .finite (d.keyValue (d.key x)) := by
      simp [value, hn, hi, finiteValue_eq_keyValue hd hx]
    rcases key_cases d x with ⟨-, hk⟩ | ⟨-, hk⟩
    · exact .inr (.inl ⟨by omega, by omega, hv⟩)
    · exact .inr (.inl ⟨by omega, by omega, hv⟩)

/-- The infinities are not zero. -/
theorem inf_pos (hd : d.Wf) : 0 < d.inf := by
  obtain ⟨-, hexp, -, -⟩ := hd
  have hp : 1 < 2 ^ d.exp := Nat.one_lt_two_pow (by omega)
  rw [inf_eq]
  exact Nat.mul_pos (by omega) (by positivity)

section Order

variable (hd : d.Wf) {x y : Nat} (hx : d.Encoding x) (hy : d.Encoding y) (hnx : d.isNan x = false)
  (hny : d.isNan y = false)

include hd hx hy hnx hny

/-- Encodings that are not NaN have equal values exactly if their keys are equal: both zeros have the key 0 (R64). -/
theorem value_eq_iff_key : d.value x = d.value y ↔ d.key x = d.key y := by
  have hpos := inf_pos hd
  obtain ⟨hkx, hvx⟩ | ⟨hlx, hux, hvx⟩ | ⟨hkx, hvx⟩ := value_by_key hd hx hnx <;>
    obtain ⟨hky, hvy⟩ | ⟨hly, huy, hvy⟩ | ⟨hky, hvy⟩ := value_by_key hd hy hny <;>
    rw [hvx, hvy]
  case inr.inl.inr.inl => rw [Value.finite.injEq, d.keyValue_strictMono.injective.eq_iff]
  all_goals simp only [Value.infinite.injEq, reduceCtorEq, true_iff, false_iff]; omega

/-- The values of encodings that are not NaN are in the order of their keys (R64). -/
theorem value_lt_iff_key : Value.lt (d.value x) (d.value y) ↔ d.key x < d.key y := by
  have hpos := inf_pos hd
  obtain ⟨hkx, hvx⟩ | ⟨hlx, hux, hvx⟩ | ⟨hkx, hvx⟩ := value_by_key hd hx hnx <;>
    obtain ⟨hky, hvy⟩ | ⟨hly, huy, hvy⟩ | ⟨hky, hvy⟩ := value_by_key hd hy hny <;>
    rw [hvx, hvy, Value.lt]
  case inr.inl.inr.inl => exact d.keyValue_strictMono.lt_iff_lt
  all_goals simp only [reduceCtorEq, and_true, and_false, true_iff, false_iff]; omega

end Order

/-! ### The fields of an encoding (R62, R64) -/

/-- The magnitude is the encoding below its sign bit. -/
theorem mag_eq_mod (hd : d.Wf) {x : Nat} (hx : d.Encoding x) : d.mag x = x % 2 ^ (d.total - 1) := by
  obtain ⟨hsplit, -, hlt⟩ := sign_mag hd hx
  conv_rhs => rw [hsplit, Nat.mul_add_mod', Nat.mod_eq_of_lt hlt]

end Desc

/-- Settles O13 (R64): an encoding that is not NaN has the value of its key (`Desc.value_by_key`), and the value of a
key grows with it (`Desc.keyValue_strictMono`). -/
theorem keysOrderTheValues : Obligations.KeysOrderTheValues := by
  intro p x y hx hy
  have hd := table_row_wf p
  exact ⟨Desc.mag_eq_mod hd hx, rfl, fun hnx hny =>
    ⟨Desc.value_eq_iff_key hd hx hy hnx hny, Desc.value_lt_iff_key hd hx hy hnx hny⟩⟩

/-- Settles O12 (R62): the encoding is its sign and magnitude (`Desc.sign_mag`), and the magnitude is the other two
fields (`Desc.mag_fields`). -/
theorem fieldsComposeTheEncoding : Obligations.FieldsComposeTheEncoding := by
  intro p x hx
  have hd := table_row_wf p
  obtain ⟨hsplit, hsign, -⟩ := Desc.sign_mag hd hx
  obtain ⟨hmag, hexp, hmant⟩ := Desc.mag_fields hd x
  refine ⟨?_, hsign, hexp, hmant⟩
  rw [Nat.add_assoc, ← hmag]
  exact hsplit

/-! ### The descriptor ROM, PDESC and the named encodings (R60, R61, R67, R68) -/

/-- The bias of a row is the middle of its exponent range (R60). -/
theorem table_row_bias (p : Prec) : (Rom.table.row p).bias = 2 ^ ((Rom.table.row p).exp - 1) - 1 := by
  cases p <;> rfl

/-- Settles O11 (R60, R61), row by row: the widths of a row add up (`table_row_wf`). -/
theorem descriptorTable : Obligations.DescriptorTable :=
  ⟨table_row_H, table_row_S, table_row_D, fun p => ⟨(table_row_wf p).1, table_row_bias p⟩⟩

/-- PDESC's encoding (R67). -/
theorem encode_pdesc (p : Prec) : encode (.pdesc p) = BitVec.ofNat 32 (0x001 ||| p.code <<< 8) := by
  cases p <;> rfl

/-- PDESC answers with the packed descriptor, whatever the operand words hold (R67). -/
theorem exec_pdesc {s : State} (p : Prec) (hrom : s.rom = Rom.table) : exec (.pdesc p) s =
    .next (s.push ⟨0x10, zext64 (Rom.table.row p).packed, 0, 0, 0, 0⟩) := by
  rw [exec_answers, commandResult, answer_ok, success_plain, hrom]

/-- The packed descriptor of a row holds its integers at their bits, and nothing between them (R67). -/
theorem table_row_packed (p : Prec) :
    let d := Rom.table.row p
    let w := (zext64 d.packed).toNat
    bits w 7 0 = d.total ∧ bits w 15 8 = d.exp ∧ bits w 23 16 = d.mant ∧ bits w 47 32 = d.bias ∧
      bits w 31 24 = 0 ∧ bits w 63 48 = 0 := by
  cases p <;> decide

/-- Settles O14 (R67): PDESC answers with the packed descriptor (`exec_pdesc`), whose fields are the row's. -/
theorem pdescPacksTheDescriptor : Obligations.PdescPacksTheDescriptor :=
  fun _ p hrom => ⟨encode_pdesc p, _, exec_pdesc p hrom, table_row_packed p⟩

/-- Settles O15 (R68): the table's encodings are closed integers, computed from the rows. -/
theorem namedEncodings : Obligations.NamedEncodings :=
  ⟨rfl, rfl, rfl, fun _ => ⟨rfl, rfl⟩⟩

end Sys2Proof.Machine
end

section
/-! Proofs about the bit-pattern codec and the format conversions (41_codec.md). -/

namespace Sys2Proof.Machine

/-! ### Words built of fields (R13, R62) -/

theorem zext64_toNat_of_lt {v : Nat} (h : v < 2 ^ 64) : (zext64 v).toNat = v := by
  rw [zext64, BitVec.toNat_ofNat, Nat.mod_eq_of_lt h]

@[simp] theorem zext64_toNat_self (w : Word) : zext64 w.toNat = w := by simp [zext64]

/-- A number splits in one way into a multiple of `k` and a rest below `k`. -/
theorem mul_add_inj_of_lt {k e f e' f' : Nat} (hf : f < k) (hf' : f' < k) (h : e * k + f = e' * k + f') :
    e = e' ∧ f = f' := by
  have hk : 0 < k := by omega
  obtain ⟨hdiv, hmod⟩ := (Nat.div_mod_unique hk).mpr ⟨Nat.add_comm f (k * e), hf⟩
  rw [Nat.mul_comm k e, h, Nat.mul_comm] at hdiv hmod
  rw [Nat.mul_add_div hk, Nat.div_eq_of_lt hf', Nat.add_zero] at hdiv
  rw [Nat.mul_add_mod, Nat.mod_eq_of_lt hf'] at hmod
  exact ⟨hdiv.symm, hmod.symm⟩

namespace Desc

variable {d : Desc}

theorem sign_lt_two (d : Desc) (x : Nat) : d.sign x < 2 := Nat.mod_lt _ two_pos

/-- An exponent field and a mantissa field make a magnitude. -/
theorem mag_lt_of_fields (hd : d.Wf) {e f : Nat} (he : e < 2 ^ d.exp) (hf : f < 2 ^ d.mant) :
    e * 2 ^ d.mant + f < 2 ^ (d.total - 1) := by
  obtain ⟨ht, -, -, -⟩ := hd
  calc e * 2 ^ d.mant + f < (e + 1) * 2 ^ d.mant := by rw [Nat.add_mul, Nat.one_mul]; omega
    _ ≤ 2 ^ d.exp * 2 ^ d.mant := Nat.mul_le_mul_right _ he
    _ = 2 ^ (d.total - 1) := by rw [← Nat.pow_add]; congr 1; omega

/-- A sign above a magnitude, put into a response word, is their sum: the bits do not overlap and all fit. -/
theorem signWord_toNat (hd : d.Wf) {s g : Nat} (hs : s < 2) (hg : g < 2 ^ (d.total - 1)) :
    (zext64 (s <<< (d.total - 1) ||| g)).toNat = s * 2 ^ (d.total - 1) + g := by
  have heq : s <<< (d.total - 1) ||| g = s * 2 ^ (d.total - 1) + g := by
    rw [← Nat.shiftLeft_add_eq_or_of_lt hg, Nat.shiftLeft_eq]
  obtain ⟨hx, -, -⟩ := sign_mag_unique hd heq hs hg
  obtain ⟨-, -, -, htotal⟩ := hd
  have ht : 2 ^ d.total ≤ 2 ^ 64 := Nat.pow_le_pow_right two_pos htotal
  rw [zext64_toNat_of_lt (lt_of_lt_of_le hx ht), heq]

/-- The three fields of an encoding `x` (R62). -/
structure HasFields (d : Desc) (x s e f : Nat) : Prop where
  encoding : d.Encoding x
  sign : d.sign x = s
  rexp : d.rexp x = e
  rmant : d.rmant x = f

/-- Fields that fit, put into a response word at their places, are the fields of that word. -/
theorem hasFields_word (hd : d.Wf) {s e f : Nat} (hs : s < 2) (he : e < 2 ^ d.exp) (hf : f < 2 ^ d.mant) :
    d.HasFields (zext64 (s <<< (d.total - 1) ||| e <<< d.mant ||| f)).toNat s e f := by
  have hg := mag_lt_of_fields hd he hf
  have hor : e <<< d.mant ||| f = e * 2 ^ d.mant + f := by
    rw [← Nat.shiftLeft_add_eq_or_of_lt hf, Nat.shiftLeft_eq]
  have hword := signWord_toNat hd hs hg
  rw [← hor, ← Nat.or_assoc, hor] at hword
  obtain ⟨hx, hsign, hmag⟩ := sign_mag_unique hd hword hs hg
  obtain ⟨hfields, -, hmant⟩ := mag_fields hd (zext64 (s <<< (d.total - 1) ||| e <<< d.mant ||| f)).toNat
  obtain ⟨hexp, hmant⟩ := mul_add_inj_of_lt hmant hf (hfields.symm.trans hmag)
  exact ⟨hx, hsign, hexp, hmant⟩

variable {x : Nat}

theorem rmant_eq_mod (hd : d.Wf) (x : Nat) : d.rmant x = x % 2 ^ d.mant := by
  obtain ⟨-, -, hpos, -⟩ := hd
  simp [rmant, bits, Nat.sub_add_cancel hpos]

/-- The quiet bit lies in the mantissa field, so an encoding is quiet as soon as its mantissa is (R65). -/
theorem quiet_eq_of_rmant (hd : d.Wf) (h : d.quiet (d.rmant x) = d.rmant x) : d.quiet x = x := by
  have hsplit : x = (x / 2 ^ d.mant) <<< d.mant ||| d.rmant x := by
    rw [rmant_eq_mod hd, ← Nat.shiftLeft_add_eq_or_of_lt (Nat.mod_lt _ (Nat.two_pow_pos _)), Nat.shiftLeft_eq,
      Nat.div_add_mod']
  calc d.quiet x = (x / 2 ^ d.mant) <<< d.mant ||| d.quiet (d.rmant x) := by
        rw [quiet, quiet, ← Nat.or_assoc, ← hsplit]
    _ = x := by rw [h, ← hsplit]

/-! The class of an encoding by its fields (R63). -/

theorem isNan_iff : d.isNan x = true ↔ d.rexp x = d.emax ∧ d.rmant x ≠ 0 := by simp [isNan]

theorem isInf_iff : d.isInf x = true ↔ d.rexp x = d.emax ∧ d.rmant x = 0 := by simp [isInf]

theorem isZero_iff : d.isZero x = true ↔ d.rexp x = 0 ∧ d.rmant x = 0 := by simp [isZero]

theorem isFinite_iff : d.isFinite x = true ↔ d.rexp x ≠ d.emax := by simp [isFinite]

/-- The exponent field of a finite encoding lies below all ones. -/
theorem rexp_lt_emax (hd : d.Wf) (h : d.isFinite x = true) : d.rexp x < d.emax := by
  obtain ⟨-, hlt, -⟩ := mag_fields hd x
  exact lt_of_le_of_ne (Nat.le_sub_one_of_lt hlt) (isFinite_iff.mp h)

/-- Every encoding is finite, an infinity or a NaN (R63). -/
theorem isFinite_or_isInf_or_isNan (d : Desc) (x : Nat) :
    d.isFinite x = true ∨ d.isInf x = true ∨ d.isNan x = true := by
  rw [isFinite_iff, isInf_iff, isNan_iff]
  tauto

theorem not_isNan_not_isInf_of_isFinite (h : d.isFinite x = true) :
    ¬d.isNan x = true ∧ ¬d.isInf x = true :=
  have hne := isFinite_iff.mp h
  ⟨fun hn => hne (isNan_iff.mp hn).1, fun hi => hne (isInf_iff.mp hi).1⟩

end Desc

/-! ### Responses of the codec (R80 to R83) -/

/-- A command whose result is a word answers with that word and OK. -/
theorem exec_of_success {i : Instr} {s : State} {w : Word}
    (h : commandResult i s.rom s.req = .ok (.success w)) : exec i s = .next (s.push ⟨0x10, w, 0, 0, 0, 0⟩) := by
  rw [exec_answers, h, answer_ok, success_plain]

/-- A command that raises RANGE answers with its code (R150, R151). -/
theorem exec_of_range {i : Instr} {s : State} (h : commandResult i s.rom s.req = .error .range) :
    exec i s = .next (s.push ⟨5, 0, 0, 0, 0, 0⟩) := by
  rw [exec_answers, h, answer_error]
  rfl

/-- The command word of a row with SGN = SRC = 0 (R40). -/
theorem packCommand_plain (op : Nat) (p : Prec) : packCommand op p 0 0 = BitVec.ofNat 32 (op ||| p.code <<< 8) := by
  simp [packCommand]

/-- Every precision has bits. -/
theorem table_row_total_pos (p : Prec) : 0 < (Rom.table.row p).total := by
  obtain ⟨ht, -, -, -⟩ := table_row_wf p
  omega

/-- No precision is wider than a word. -/
theorem table_row_total_le (p : Prec) : (Rom.table.row p).total ≤ 64 := by
  obtain ⟨-, -, -, hle⟩ := table_row_wf p
  exact hle

section Patterns

variable {d : Desc} {w : Word}

theorem ftob_of_lt (ht : 0 < d.total) (h : w.toNat < 2 ^ d.total) : ftob d w = .ok (.success w) := by
  rw [ftob, typed_of_lt ht h]
  simp

theorem ftob_of_ge (h : 2 ^ d.total ≤ w.toNat) : ftob d w = .error .range := by
  rw [ftob, typed_of_ge h]
  rfl

/-- BTOF reads and answers as FTOB does: a float and its pattern are the same word (R80, R82). -/
theorem btof_eq_ftob : btof = ftob := rfl

theorem ftobs_of_lt (ht : 0 < d.total) (h : w.toNat < 2 ^ d.total) :
    ftobs d w = .ok (.success (sext64 d.total w.toNat)) := by
  rw [ftobs, typed_of_lt ht h]
  rfl

theorem ftobs_of_ge (h : 2 ^ d.total ≤ w.toNat) : ftobs d w = .error .range := by
  rw [ftobs, typed_of_ge h]
  rfl

theorem btofs_of_mem (ht : 0 < d.total) (ht' : d.total ≤ 64)
    (h : -2 ^ (d.total - 1) ≤ w.toInt ∧ w.toInt < 2 ^ (d.total - 1)) :
    btofs d w = .ok (.success (zext64 (w.toNat % 2 ^ d.total))) := by
  rw [btofs, signedBits_of_mem ht ht' h]
  rfl

theorem btofs_of_not_mem (ht : 0 < d.total) (ht' : d.total ≤ 64)
    (h : ¬(-2 ^ (d.total - 1) ≤ w.toInt ∧ w.toInt < 2 ^ (d.total - 1))) : btofs d w = .error .range := by
  rw [btofs, signedBits_of_not_mem ht ht' h]
  rfl

/-- The low bits of a word are those of the integer it holds in two's complement. -/
theorem toNat_mod_two_pow_eq_toInt_emod {t : Nat} (ht : t ≤ 64) (w : Word) :
    ((w.toNat % 2 ^ t : Nat) : Int) = w.toInt % 2 ^ t := by
  have hdvd : (2 : Int) ^ t ∣ ((2 ^ 64 : Nat) : Int) := by exact_mod_cast pow_dvd_pow (2 : Int) ht
  calc ((w.toNat % 2 ^ t : Nat) : Int) = (w.toNat : Int) % 2 ^ t := by push_cast; rfl
    _ = (w.toNat : Int) % ((2 ^ 64 : Nat) : Int) % 2 ^ t := (Int.emod_emod_of_dvd _ hdvd).symm
    _ = w.toInt % ((2 ^ 64 : Nat) : Int) % 2 ^ t := by rw [BitVec.toInt_eq_toNat_bmod, Int.bmod_emod]
    _ = w.toInt % 2 ^ t := Int.emod_emod_of_dvd _ hdvd

end Patterns

/-- Settles O16 (R80): a typed operand reads as itself (`ftob_of_lt`), and every other word is out of range. -/
theorem ftobReturnsThePattern : Obligations.FtobReturnsThePattern := by
  intro s p hrom
  refine ⟨packCommand_plain 0x010 p, fun h => exec_of_success ?_, fun h => exec_of_range ?_⟩
  · rw [hrom]
    exact ftob_of_lt (table_row_total_pos p) h
  · rw [hrom]
    exact ftob_of_ge h

/-- Settles O18 (R82): BTOF is FTOB on patterns (`btof_eq_ftob`). -/
theorem btofReturnsTheEncoding : Obligations.BtofReturnsTheEncoding := by
  intro s p hrom
  refine ⟨packCommand_plain 0x012 p, fun h => exec_of_success ?_, fun h => exec_of_range ?_⟩
  · rw [hrom, commandResult, btof_eq_ftob]
    exact ftob_of_lt (table_row_total_pos p) h
  · rw [hrom, commandResult, btof_eq_ftob]
    exact ftob_of_ge h

/-- Settles O17 (R81): RES is the sign extension of the pattern, whose integer `sext64_toInt` gives. -/
theorem ftobsReturnsTheSignedView : Obligations.FtobsReturnsTheSignedView := by
  intro s p hrom
  refine ⟨packCommand_plain 0x011 p, fun h => ⟨sext64 (Rom.table.row p).total s.req.a.toNat, exec_of_success ?_, ?_⟩,
    fun h => exec_of_range ?_⟩
  · rw [hrom]
    exact ftobs_of_lt (table_row_total_pos p) h
  · rw [sext64_toInt (table_row_total_pos p) (table_row_total_le p), Nat.mod_eq_of_lt h]
  · rw [hrom]
    exact ftobs_of_ge h

/-- Settles O19 (R83): the signed range is what `signedBits` accepts, and RES holds the low bits of the integer
(`toNat_mod_two_pow_eq_toInt_emod`). -/
theorem btofsReturnsTheEncoding : Obligations.BtofsReturnsTheEncoding := by
  intro s p hrom
  have hpos := table_row_total_pos p
  have hle := table_row_total_le p
  refine ⟨packCommand_plain 0x013 p, fun hlo hhi =>
    ⟨zext64 (s.req.a.toNat % 2 ^ (Rom.table.row p).total), exec_of_success ?_, ?_⟩, fun h => exec_of_range ?_⟩
  · rw [hrom]
    exact btofs_of_mem hpos hle ⟨hlo, hhi⟩
  · rw [zext64_toNat_of_lt (lt_of_le_of_lt (Nat.mod_le _ _) s.req.a.isLt)]
    exact toNat_mod_two_pow_eq_toInt_emod hle s.req.a
  · rw [hrom]
    exact btofs_of_not_mem hpos hle fun ⟨hlo, hhi⟩ => h.elim (not_lt.mpr hlo) (not_le.mpr hhi)

/-! ### NaNs narrowed (R85) -/

/-- Binary64 has the widest mantissa. -/
theorem table_row_mant_le (p : Prec) : (Rom.table.row p).mant ≤ 52 := by
  cases p <;> decide

/-- The mantissa of a narrowed NaN: the top payload bits under the quiet bit (R85). -/
def narrowPayload (d : Desc) (a : Nat) : Nat :=
  (Rom.table.row .D).rmant a / 2 ^ (52 - d.mant) ||| 2 ^ (d.mant - 1)

theorem narrowPayload_quiet (d : Desc) (a : Nat) : d.quiet (narrowPayload d a) = narrowPayload d a := by
  rw [Desc.quiet, narrowPayload, Nat.or_assoc, Nat.or_self]

/-- The quiet bit sets the mantissa, so it is not 0. -/
theorem narrowPayload_ne_zero (d : Desc) (a : Nat) : narrowPayload d a ≠ 0 :=
  Nat.ne_of_gt (lt_of_lt_of_le (Nat.two_pow_pos (d.mant - 1)) Nat.right_le_or)

section Narrow

variable {d : Desc} (hd : d.Wf)

include hd

theorem narrowPayload_lt (hm : d.mant ≤ 52) (a : Nat) : narrowPayload d a < 2 ^ d.mant := by
  obtain ⟨-, -, hpos, -⟩ := hd
  obtain ⟨-, -, hlt⟩ := Desc.mag_fields (table_row_wf .D) a
  refine Nat.or_lt_two_pow (Nat.div_lt_of_lt_mul ?_) (Nat.pow_lt_pow_right one_lt_two (by omega))
  rw [← Nat.pow_add, Nat.sub_add_cancel hm]
  exact hlt

/-- The result of CVTN on a NaN, field by field. -/
theorem narrow_nan_hasFields (hm : d.mant ≤ 52) {a : Nat} (ha : (Rom.table.row .D).isNan a = true) :
    d.HasFields (zext64 (narrow Rom.table.d d a)).toNat ((Rom.table.row .D).sign a) d.emax (narrowPayload d a) := by
  have hemax : d.emax < 2 ^ d.exp := Nat.sub_lt (Nat.two_pow_pos _) one_pos
  have hform : narrow Rom.table.d d a =
      (Rom.table.row .D).sign a <<< (d.total - 1) ||| d.emax <<< d.mant ||| narrowPayload d a := by
    rw [narrowPayload, ← Nat.shiftRight_eq_div_pow, ← Nat.or_assoc]
    exact if_pos ha
  rw [hform]
  exact Desc.hasFields_word hd (Desc.sign_lt_two _ a) hemax (narrowPayload_lt hd hm a)

end Narrow

/-- Below p = D, CVTN answers with the narrowed operand (R84). -/
theorem exec_cvtn {s : State} {p : Prec} (hrom : s.rom = Rom.table) (hp : p ≠ .D) : exec (.cvtn p) s =
    .next (s.push ⟨0x10, zext64 (narrow Rom.table.d (Rom.table.row p) s.req.a.toNat), 0, 0, 0, 0⟩) := by
  refine exec_of_success ?_
  rw [hrom]
  cases p with
  | H | S => rfl
  | D => exact absurd rfl hp

/-- Settles O22 (R85): the NaN has the fields of `narrow_nan_hasFields`, whose mantissa `narrowPayload` is quiet. -/
theorem cvtnMakesQuietNans : Obligations.CvtnMakesQuietNans := by
  intro s p hrom hp d b a ha
  have hd : d.Wf := table_row_wf p
  have h := narrow_nan_hasFields hd (table_row_mant_le p) ha
  refine ⟨_, exec_cvtn hrom hp, h.encoding, Desc.isNan_iff.mpr ⟨h.rexp, ?_⟩, Desc.quiet_eq_of_rmant hd ?_, h.sign,
    h.rmant⟩
  · rw [h.rmant]
    exact narrowPayload_ne_zero d a
  · rw [h.rmant]
    exact narrowPayload_quiet d a

/-! ### Widening (R86) -/

/-- What lets binary64 hold every value of a format: its mantissa and exponent are no wider, and the bias is the middle
of the exponent range. -/
structure Desc.Widens (d : Desc) : Prop where
  wf : d.Wf
  mant_le : d.mant ≤ 52
  bias_mant_le : d.bias + d.mant ≤ 1023
  emax_eq : d.emax = 2 * d.bias + 1

theorem table_row_widens {p : Prec} (hp : p ≠ .D) : (Rom.table.row p).Widens := by
  refine ⟨table_row_wf p, table_row_mant_le p, ?_, ?_⟩
  · cases p with
    | H | S => decide
    | D => exact absurd rfl hp
  · cases p <;> rfl

section Widen

variable {d : Desc} {x : Nat}

/-- The fields of a widened word are those its exponent field and its mantissa were put together from. -/
theorem widen_hasFields {e f : Nat}
    (hform : widen d Rom.table.d x = d.sign x <<< 63 ||| e <<< 52 ||| f) (he : e < 2 ^ 11) (hf : f < 2 ^ 52) :
    (Rom.table.row .D).HasFields (zext64 (widen d Rom.table.d x)).toNat (d.sign x) e f := by
  rw [hform]
  exact Desc.hasFields_word (table_row_wf .D) (Desc.sign_lt_two d x) he hf

/-- Encodings with the same sign have the same value, if their counts of units differ by the factor that the units
differ by (R66). -/
theorem finiteValue_eq_of_units {d' : Desc} {y c : Nat} (hsign : d'.sign y = d.sign x)
    (hunits : d'.fieldUnits (d'.rexp y) (d'.rmant y) = d.fieldUnits (d.rexp x) (d.rmant x) * 2 ^ c)
    (hc : d'.bias + d'.mant = d.bias + d.mant + c) : d'.finiteValue y = d.finiteValue x := by
  have hscale : (2 : ℚ) ^ c * (2 : ℚ) ^ (1 - d'.bias - d'.mant : Int) = (2 : ℚ) ^ (1 - d.bias - d.mant : Int) := by
    rw [← zpow_natCast, ← zpow_add₀ two_ne_zero]
    congr 1
    omega
  rw [Desc.finiteValue, Desc.finiteValue, mul_assoc, mul_assoc, Desc.significand_mul_scale,
    Desc.significand_mul_scale, hsign, hunits, Nat.cast_mul, Nat.cast_pow, Nat.cast_ofNat, mul_assoc, hscale]

variable (hd : d.Widens)

include hd

/-- The mantissa field, left-aligned in that of binary64. -/
theorem rmant_mul_lt (x : Nat) : d.rmant x * 2 ^ (52 - d.mant) < 2 ^ 52 := by
  obtain ⟨-, -, hlt⟩ := Desc.mag_fields hd.wf x
  calc d.rmant x * 2 ^ (52 - d.mant) < 2 ^ d.mant * 2 ^ (52 - d.mant) := by gcongr
    _ = 2 ^ 52 := by rw [← Nat.pow_add, Nat.add_sub_cancel' hd.mant_le]

theorem widen_nan_hasFields (h : d.isNan x = true) : (Rom.table.row .D).HasFields
    (zext64 (widen d Rom.table.d x)).toNat (d.sign x) 2047 (d.rmant x * 2 ^ (52 - d.mant) ||| 2 ^ 51) := by
  refine widen_hasFields ?_ (by decide) (Nat.or_lt_two_pow (rmant_mul_lt hd x) (by decide))
  rw [← Nat.shiftLeft_eq, ← Nat.or_assoc]
  exact if_pos h

omit hd in
theorem widen_inf_hasFields (h : d.isInf x = true) :
    (Rom.table.row .D).HasFields (zext64 (widen d Rom.table.d x)).toNat (d.sign x) 2047 0 := by
  obtain ⟨hexp, hmant⟩ := Desc.isInf_iff.mp h
  refine widen_hasFields ?_ (by decide) (by decide)
  have hnan : ¬d.isNan x = true := fun hn => (Desc.isNan_iff.mp hn).2 hmant
  rw [widen, if_neg hnan, if_pos h, Nat.or_zero]
  rfl

omit hd in
theorem widen_zero_hasFields (hemax : d.emax ≠ 0) (hexp : d.rexp x = 0) (hmant : d.rmant x = 0) :
    (Rom.table.row .D).HasFields (zext64 (widen d Rom.table.d x)).toNat (d.sign x) 0 0 := by
  refine widen_hasFields ?_ (by decide) (by decide)
  simp [widen, Desc.isNan, Desc.isInf, Desc.isZero, hexp, hmant, hemax.symm]

/-- The leading one of a subnormal's mantissa lies inside the field. -/
theorem log2_rmant_lt (hmant : d.rmant x ≠ 0) : Nat.log2 (d.rmant x) < d.mant := by
  obtain ⟨-, -, hlt⟩ := Desc.mag_fields hd.wf x
  exact (Nat.log2_lt hmant).mpr hlt

omit hd in
/-- A subnormal's mantissa shifted until its leading one is at bit 52, where it is the implicit bit. -/
theorem two_pow_add_normalized {r : Nat} (hr : r ≠ 0) (hl : Nat.log2 r ≤ 52) :
    2 ^ 52 + (r - 2 ^ Nat.log2 r) * 2 ^ (52 - Nat.log2 r) = r * 2 ^ (52 - Nat.log2 r) := by
  have hle := Nat.log2_self_le hr
  calc 2 ^ 52 + (r - 2 ^ Nat.log2 r) * 2 ^ (52 - Nat.log2 r)
      = (2 ^ Nat.log2 r + (r - 2 ^ Nat.log2 r)) * 2 ^ (52 - Nat.log2 r) := by
        rw [Nat.add_mul, ← Nat.pow_add, Nat.add_sub_cancel' hl]
    _ = r * 2 ^ (52 - Nat.log2 r) := by rw [Nat.add_sub_cancel' hle]

theorem widen_sub_hasFields (hexp : d.rexp x = 0) (hmant : d.rmant x ≠ 0) :
    let l := Nat.log2 (d.rmant x)
    (Rom.table.row .D).HasFields (zext64 (widen d Rom.table.d x)).toNat (d.sign x)
      (l + 1 + 1023 - d.mant - d.bias) ((d.rmant x - 2 ^ l) * 2 ^ (52 - l)) := by
  intro l
  have hl : l < d.mant := log2_rmant_lt hd hmant
  have hm := hd.mant_le
  have hemax : 0 ≠ d.emax := by
    rw [hd.emax_eq]
    exact Nat.zero_ne_add_one _
  have hnorm : 2 ^ 52 + (d.rmant x - 2 ^ l) * 2 ^ (52 - l) = d.rmant x * 2 ^ (52 - l) :=
    two_pow_add_normalized hmant (by omega)
  have hlead : d.rmant x * 2 ^ (52 - l) < 2 ^ 52 * 2 := by
    calc d.rmant x * 2 ^ (52 - l) < 2 ^ (l + 1) * 2 ^ (52 - l) := by gcongr; exact Nat.lt_log2_self
      _ = 2 ^ 52 * 2 := by rw [← Nat.pow_add, ← Nat.pow_succ]; congr 1; omega
  refine widen_hasFields ?_ (by omega) (by omega)
  rw [← Nat.shiftLeft_eq]
  simp [widen, Desc.isNan, Desc.isInf, Desc.isZero, Desc.isSub, hexp, hmant, hemax, l]

theorem widen_normal_hasFields (hexp : d.rexp x ≠ 0) (hfin : d.isFinite x = true) :
    (Rom.table.row .D).HasFields (zext64 (widen d Rom.table.d x)).toNat (d.sign x)
      (d.rexp x + 1023 - d.bias) (d.rmant x * 2 ^ (52 - d.mant)) := by
  have hlt := Desc.rexp_lt_emax hd.wf hfin
  have hemax := hd.emax_eq
  have hb := hd.bias_mant_le
  refine widen_hasFields ?_ (by omega) (rmant_mul_lt hd x)
  rw [← Nat.shiftLeft_eq]
  simp [widen, Desc.isNan, Desc.isInf, Desc.isZero, Desc.isSub, hexp, hlt.ne]

/-- A widened finite encoding has an exponent field that is not all ones, and the units that keep the value. -/
theorem widen_finite_hasFields (hfin : d.isFinite x = true) : ∃ e f, e < 2047 ∧
    (Rom.table.row .D).HasFields (zext64 (widen d Rom.table.d x)).toNat (d.sign x) e f ∧
    (Rom.table.row .D).fieldUnits e f = d.fieldUnits (d.rexp x) (d.rmant x) * 2 ^ (1075 - (d.bias + d.mant)) := by
  have hm := hd.mant_le
  have hb := hd.bias_mant_le
  have hemax := hd.emax_eq
  by_cases hexp : d.rexp x = 0
  · rw [hexp, Desc.fieldUnits_zero]
    by_cases hmant : d.rmant x = 0
    · refine ⟨0, 0, by decide, widen_zero_hasFields (by omega) hexp hmant, ?_⟩
      simp [hmant]
    · have hl := log2_rmant_lt hd hmant
      refine ⟨_, _, ?_, widen_sub_hasFields hd hexp hmant, ?_⟩
      · omega
      · rw [Desc.fieldUnits, if_neg (by omega), table_row_D, two_pow_add_normalized hmant (by omega), Nat.mul_assoc,
          ← Nat.pow_add]
        congr 2
        omega
  · have hlt := Desc.rexp_lt_emax hd.wf hfin
    refine ⟨_, _, ?_, widen_normal_hasFields hd hexp hfin, ?_⟩
    · omega
    · have halign : 2 ^ 52 + d.rmant x * 2 ^ (52 - d.mant) = (2 ^ d.mant + d.rmant x) * 2 ^ (52 - d.mant) := by
        rw [Nat.add_mul, ← Nat.pow_add, Nat.add_sub_cancel' hm]
      rw [Desc.fieldUnits, Desc.fieldUnits, if_neg (by omega), if_neg hexp, table_row_D, halign, Nat.mul_assoc,
        Nat.mul_assoc, ← Nat.pow_add, ← Nat.pow_add]
      congr 2
      omega

/-- CVTW keeps the value of a finite encoding (R86). -/
theorem widen_finite (hfin : d.isFinite x = true) :
    let b := Rom.table.row .D
    let w := (zext64 (widen d Rom.table.d x)).toNat
    b.sign w = d.sign x ∧ b.isFinite w = true ∧ b.finiteValue w = d.finiteValue x := by
  intro b w
  obtain ⟨e, f, he, h, hunits⟩ := widen_finite_hasFields hd hfin
  have hb := hd.bias_mant_le
  refine ⟨h.sign, Desc.isFinite_iff.mpr ?_, finiteValue_eq_of_units h.sign (c := 1075 - (d.bias + d.mant)) ?_ ?_⟩
  · rw [h.rexp]
    exact Nat.ne_of_lt he
  · rw [h.rexp, h.rmant]
    exact hunits
  · change 1023 + 52 = _
    omega

end Widen

theorem cvtw_of_encoding {p : Prec} {a : Word} (hp : p ≠ .D) (ha : (Rom.table.row p).Encoding a.toNat) :
    cvtw Rom.table p a = .ok (.success (zext64 (widen (Rom.table.row p) Rom.table.d a.toNat))) := by
  rw [cvtw, typed_of_lt (table_row_total_pos p) ha]
  cases p with
  | H | S => rfl
  | D => exact absurd rfl hp

theorem cvtw_D (a : Word) : cvtw Rom.table .D a = .ok (.success a) := by
  rw [cvtw, typed_D]
  simp

/-- CVTW raises RANGE for a word that is no encoding (R47, R86). -/
theorem cvtw_of_ge {p : Prec} {a : Word} (ha : 2 ^ (Rom.table.row p).total ≤ a.toNat) :
    cvtw Rom.table p a = .error .range := by
  rw [cvtw, typed_of_ge ha]
  rfl

/-- Settles O23 (R86), by the precision and the class of the operand: the fields of a widened word
(`widen_finite_hasFields`, `widen_nan_hasFields`, `widen_inf_hasFields`) hold its value, its payload or its infinity. -/
theorem cvtwIsExact : Obligations.CvtwIsExact := by
  intro s p hrom d b a
  refine ⟨packCommand_plain 0x015 p, fun ha => ?_, fun ha => exec_of_range ?_⟩
  · by_cases hp : p = .D
    · subst hp
      refine ⟨s.req.a, exec_of_success ?_, rfl, fun _ => rfl, fun h => ⟨h, rfl⟩, fun h => h, fun h => absurd rfl h⟩
      rw [hrom]
      exact cvtw_D s.req.a
    · have hd : d.Widens := table_row_widens hp
      refine ⟨_, exec_of_success (by rw [hrom]; exact cvtw_of_encoding hp ha), ?_, fun h => absurd h hp,
        fun h => (widen_finite hd h).2, fun h => ?_, fun _ h => ?_⟩
      · obtain h | h | h := d.isFinite_or_isInf_or_isNan a
        · exact (widen_finite hd h).1
        · exact (widen_inf_hasFields h).sign
        · exact (widen_nan_hasFields hd h).sign
      · have hf := widen_inf_hasFields h
        exact Desc.isInf_iff.mpr ⟨hf.rexp, hf.rmant⟩
      · have hf := widen_nan_hasFields hd h
        refine ⟨Desc.isNan_iff.mpr ⟨hf.rexp, ?_⟩, hf.rmant⟩
        rw [hf.rmant]
        exact Nat.ne_of_gt (lt_of_lt_of_le (Nat.two_pow_pos 51) Nat.right_le_or)
  · rw [hrom]
    exact cvtw_of_ge ha

/-! ### Rounding over the rationals (R84) -/

/-- `roundHalfEven` is the rounding of R84 on a quotient. -/
theorem roundHalfEven_rounds (num : Nat) {den : Nat} (h : 0 < den) :
    RoundsHalfEvenTo ((num : ℚ) / den) (roundHalfEven num den) := by
  obtain ⟨hlo, hhi, hhalf⟩ := roundHalfEven_spec num h
  generalize roundHalfEven num den = r at hlo hhi hhalf
  have hden : (0 : ℚ) < den := by exact_mod_cast h
  have hdist : (num : ℚ) / den - r = (num - r * den) / den := by field_simp
  have hlo' : (2 * num : ℚ) ≤ 2 * (r * den) + den := by exact_mod_cast hlo
  have hhi' : (2 * (r * den) : ℚ) ≤ 2 * num + den := by exact_mod_cast hhi
  rw [RoundsHalfEvenTo, hdist, abs_div, abs_of_pos hden, ← mul_div_assoc, div_le_one hden, div_eq_one_iff_eq hden.ne']
  refine ⟨?_, fun heq => Nat.even_iff.mpr (hhalf ?_)⟩
  · rcases abs_cases ((num : ℚ) - r * den) with ⟨habs, -⟩ | ⟨habs, -⟩ <;> rw [habs] <;> linarith
  · rcases abs_cases ((num : ℚ) - r * den) with ⟨habs, -⟩ | ⟨habs, -⟩
    · rw [habs] at heq
      exact .inl (by exact_mod_cast (by linarith : (2 * num : ℚ) = 2 * (r * den) + den))
    · rw [habs] at heq
      exact .inr (by exact_mod_cast (by linarith : (2 * (r * den) : ℚ) = 2 * num + den))

/-- A natural number rounds to itself. -/
theorem natCast_roundsHalfEvenTo (n : Nat) : RoundsHalfEvenTo n n := by
  simp [RoundsHalfEvenTo]

/-- `roundScaled` is the rounding of R84 on `n * 2^k` (log 11). -/
theorem roundScaled_rounds (n : Nat) (k : Int) : RoundsHalfEvenTo (n * (2 : ℚ) ^ k) (roundScaled n k) := by
  rcases lt_or_ge k 0 with hk | hk
  · have hpow : (n : ℚ) * 2 ^ k = n / ((2 ^ (-k).toNat : Nat) : ℚ) := by
      rw [Nat.cast_pow, Nat.cast_ofNat, ← zpow_natCast, Int.toNat_of_nonneg (by omega), zpow_neg, div_inv_eq_mul]
    rw [roundScaled_of_neg hk, hpow]
    exact roundHalfEven_rounds n (Nat.two_pow_pos _)
  · have hpow : (n : ℚ) * 2 ^ k = (n * 2 ^ k.toNat : Nat) := by
      rw [Nat.cast_mul, Nat.cast_pow, Nat.cast_ofNat, ← zpow_natCast, Int.toNat_of_nonneg hk]
    rw [roundScaled_of_nonneg hk, hpow]
    exact natCast_roundsHalfEvenTo _

/-- Rounding a number below an integer does not go beyond it. -/
theorem RoundsHalfEvenTo.le_of_lt {r : ℚ} {n k : Nat} (h : RoundsHalfEvenTo r n) (hr : r < k) : n ≤ k := by
  obtain ⟨hdist, -⟩ := h
  have hn : (n : ℚ) - r ≤ |r - n| := by
    rw [abs_sub_comm]
    exact le_abs_self _
  exact Nat.lt_succ_iff.mp (by exact_mod_cast (by push_cast; linarith : (n : ℚ) < ((k + 1 : Nat) : ℚ)))

/-! ### The rounded magnitude (R84) -/

/-- The magnitude that R84 gives to `n` units of `2^q`: overflow, a result below the least normal number, the carry into
the next exponent, and any other normal number. -/
def roundedMagnitude (d : Desc) (q : Int) (n : Nat) : Nat :=
  if scaledAtLeast n q (d.bias + 1) then d.inf
  else if n < 2 ^ d.mant then n
  else if n = 2 ^ (d.mant + 1) then (q + 1 + d.mant + d.bias).toNat <<< d.mant
  else (q + d.mant + d.bias).toNat <<< d.mant ||| (n - 2 ^ d.mant)

/-- The E of R84: the place of the leading bit of a finite operand. -/
def leadingExponent (src : Desc) (a : Nat) : Int := src.scale a + (Nat.log2 (src.significand a) : Int)

/-- The q of R84 for an operand whose leading bit is at `e`. -/
def quantumExponent (d : Desc) (e : Int) : Int := max e (1 - d.bias) - d.mant

theorem narrowMagnitude_eq {src d : Desc} {a : Nat} {q : Int} (hq : q = quantumExponent d (leadingExponent src a)) :
    narrowMagnitude src d a = roundedMagnitude d q (roundScaled (src.significand a) (src.scale a - q)) := by
  subst hq
  unfold narrowMagnitude roundedMagnitude quantumExponent leadingExponent
  dsimp only
  generalize roundScaled _ _ = n
  by_cases hcarry : n = 2 ^ (d.mant + 1)
  · simp [hcarry]
  · simp [hcarry]

section Rounded

variable {d : Desc} {q : Int} {n : Nat}

/-- The comparison of R84 with the overflow threshold. -/
theorem scaledAtLeast_threshold_iff :
    scaledAtLeast n q (d.bias + 1) = true ↔ (2 : ℚ) ^ (d.bias + 1) ≤ n * (2 : ℚ) ^ q := by
  rw [scaledAtLeast_iff, ← zpow_natCast]
  push_cast
  rfl

theorem roundedMagnitude_of_overflow (h : (2 : ℚ) ^ (d.bias + 1) ≤ n * (2 : ℚ) ^ q) :
    roundedMagnitude d q n = d.inf :=
  if_pos (scaledAtLeast_threshold_iff.mpr h)

/-- Below the threshold, the leading bit of `n` is. -/
theorem add_log2_le_bias (h : n * (2 : ℚ) ^ q < (2 : ℚ) ^ (d.bias + 1)) (hn : 0 < n) : q + Nat.log2 n ≤ d.bias := by
  have hlt := mt scaledAtLeast_threshold_iff.mp (not_le.mpr h)
  simp only [scaledAtLeast, decide_eq_true_eq, not_and, not_le] at hlt
  have := hlt hn
  omega

theorem roundedMagnitude_of_lt (h : n * (2 : ℚ) ^ q < (2 : ℚ) ^ (d.bias + 1)) (hn : n < 2 ^ d.mant) :
    roundedMagnitude d q n = n := by
  rw [roundedMagnitude, if_neg (mt scaledAtLeast_threshold_iff.mp (not_le.mpr h)), if_pos hn]

theorem roundedMagnitude_of_carry (h : n * (2 : ℚ) ^ q < (2 : ℚ) ^ (d.bias + 1)) (hn : n = 2 ^ (d.mant + 1)) :
    roundedMagnitude d q n = (q + 1 + d.mant + d.bias).toNat * 2 ^ d.mant := by
  have hlt : ¬n < 2 ^ d.mant := by rw [hn, Nat.pow_succ]; omega
  rw [roundedMagnitude, if_neg (mt scaledAtLeast_threshold_iff.mp (not_le.mpr h)), if_neg hlt, if_pos hn,
    Nat.shiftLeft_eq]

theorem roundedMagnitude_of_normal (h : n * (2 : ℚ) ^ q < (2 : ℚ) ^ (d.bias + 1)) (hlo : 2 ^ d.mant ≤ n)
    (hhi : n < 2 ^ (d.mant + 1)) :
    roundedMagnitude d q n = (q + d.mant + d.bias).toNat * 2 ^ d.mant + (n - 2 ^ d.mant) := by
  have hrest : n - 2 ^ d.mant < 2 ^ d.mant := by rw [Nat.pow_succ] at hhi; omega
  rw [roundedMagnitude, if_neg (mt scaledAtLeast_threshold_iff.mp (not_le.mpr h)), if_neg (not_lt.mpr hlo),
    if_neg hhi.ne, ← Nat.shiftLeft_add_eq_or_of_lt hrest, Nat.shiftLeft_eq]

/-- The rounded magnitude fits below the sign bit: below the threshold the exponent field is not all ones. -/
theorem roundedMagnitude_lt (hd : d.Wf) (hbias : d.emax = 2 * d.bias + 1) (hn : n ≤ 2 ^ (d.mant + 1)) :
    roundedMagnitude d q n < 2 ^ (d.total - 1) := by
  have hexp : 0 < 2 ^ d.exp := Nat.two_pow_pos _
  have hpow : d.emax = 2 ^ d.exp - 1 := rfl
  have hpos : 0 < 2 ^ d.mant := Nat.two_pow_pos _
  by_cases h : (2 : ℚ) ^ (d.bias + 1) ≤ n * (2 : ℚ) ^ q
  · rw [roundedMagnitude_of_overflow h, Desc.inf_eq]
    exact Desc.mag_lt_of_fields hd (f := 0) (by omega) hpos
  rw [not_le] at h
  by_cases hsub : n < 2 ^ d.mant
  · rw [roundedMagnitude_of_lt h hsub, ← Nat.zero_add n, ← Nat.zero_mul (2 ^ d.mant)]
    exact Desc.mag_lt_of_fields hd hexp hsub
  rw [not_lt] at hsub
  have hlead := add_log2_le_bias h (by omega)
  by_cases hcarry : n = 2 ^ (d.mant + 1)
  · rw [roundedMagnitude_of_carry h hcarry]
    rw [hcarry, Nat.log2_two_pow] at hlead
    exact Desc.mag_lt_of_fields hd (f := 0) (by omega) hpos
  · have hlog : d.mant ≤ Nat.log2 n := (Nat.le_log2 (by omega)).mpr hsub
    rw [roundedMagnitude_of_normal h hsub (by omega)]
    refine Desc.mag_lt_of_fields hd (by omega) ?_
    rw [Nat.pow_succ] at hn hcarry
    omega

end Rounded

/-! ### The operand of CVTN and the result (R84) -/

section Operand

variable {src d : Desc} {a : Nat}

theorem abs_finiteValue (src : Desc) (a : Nat) : |src.finiteValue a| = src.significand a * (2 : ℚ) ^ src.scale a := by
  have hpos : (0 : ℚ) ≤ src.significand a * (2 : ℚ) ^ src.scale a := by positivity
  rw [Desc.finiteValue, mul_assoc, abs_mul, abs_neg_one_pow, one_mul, abs_of_nonneg hpos]

theorem significand_ne_zero (h : src.isZero a = false) : src.significand a ≠ 0 := by
  have hnz := mt Desc.isZero_iff.mpr (Bool.eq_false_iff.mp h)
  unfold Desc.significand
  split
  · next hexp => exact fun hmant => hnz ⟨hexp, hmant⟩
  · exact Nat.ne_of_gt (Nat.add_pos_left (Nat.two_pow_pos _) _)

/-- The magnitude of the operand lies in the binade of its leading exponent. -/
theorem leadingExponent_bounds (h : src.significand a ≠ 0) :
    (2 : ℚ) ^ leadingExponent src a ≤ |src.finiteValue a| ∧
      |src.finiteValue a| < (2 : ℚ) ^ (leadingExponent src a + 1) := by
  have hlo : (2 : ℚ) ^ Nat.log2 (src.significand a) ≤ src.significand a := by exact_mod_cast Nat.log2_self_le h
  have hhi : (src.significand a : ℚ) < 2 ^ (Nat.log2 (src.significand a) + 1) := by exact_mod_cast Nat.lt_log2_self
  have hsplit (k : Nat) : (2 : ℚ) ^ (src.scale a + k) = 2 ^ k * 2 ^ src.scale a := by
    rw [zpow_add₀ two_ne_zero, zpow_natCast, mul_comm]
  have hnext : leadingExponent src a + 1 = src.scale a + ((Nat.log2 (src.significand a) + 1 : Nat) : Int) := by
    rw [leadingExponent, Nat.cast_succ, add_assoc]
  rw [abs_finiteValue, hnext, leadingExponent, hsplit, hsplit]
  constructor <;> gcongr

/-- The N of R84: the rounding of the operand's magnitude in units of `2^q`. -/
theorem roundScaled_rounds_operand (src : Desc) (a : Nat) (q : Int) :
    RoundsHalfEvenTo (|src.finiteValue a| / (2 : ℚ) ^ q) (roundScaled (src.significand a) (src.scale a - q)) := by
  rw [abs_finiteValue, mul_div_assoc, ← zpow_sub₀ two_ne_zero]
  exact roundScaled_rounds _ _

/-- In units of `2^q` an operand is below `2^(m + 1)`, and so N is at most that. -/
theorem rounded_le {q : Int} {n : Nat} (h : src.significand a ≠ 0)
    (hq : q = quantumExponent d (leadingExponent src a)) (hn : RoundsHalfEvenTo (|src.finiteValue a| / (2 : ℚ) ^ q) n) :
    n ≤ 2 ^ (d.mant + 1) := by
  obtain ⟨-, hlt⟩ := leadingExponent_bounds h
  refine hn.le_of_lt ?_
  rw [div_lt_iff₀ (by positivity), Nat.cast_pow, Nat.cast_ofNat, ← zpow_natCast, ← zpow_add₀ two_ne_zero]
  refine lt_of_lt_of_le hlt (zpow_le_zpow_right₀ one_le_two ?_)
  rw [hq, quantumExponent]
  push_cast
  omega

/-- The exponent field of a magnitude that is not below `2^m` units is at least 1. -/
theorem quantumExponent_add_pos (d : Desc) (e : Int) : 0 < quantumExponent d e + d.mant + d.bias := by
  rw [quantumExponent]
  omega

end Operand

/-- A zero of binary64 is finite. -/
theorem isFinite_D_of_isZero {a : Nat} (h : (Rom.table.row .D).isZero a = true) :
    (Rom.table.row .D).isFinite a = true := by
  obtain ⟨hexp, -⟩ := Desc.isZero_iff.mp h
  rw [Desc.isFinite_iff, hexp]
  decide

section Result

variable {d : Desc} (hd : d.Wf) {a : Nat}

include hd

/-- The result of CVTN on a NaN as a sum of its fields (R85). -/
theorem narrow_nan_toNat (hm : d.mant ≤ 52) (ha : (Rom.table.row .D).isNan a = true) :
    (zext64 (narrow Rom.table.d d a)).toNat = (Rom.table.row .D).sign a * 2 ^ (d.total - 1) +
      (2 ^ d.exp - 1) * 2 ^ d.mant + narrowPayload d a := by
  have h := narrow_nan_hasFields hd hm ha
  obtain ⟨hsplit, -, -⟩ := Desc.sign_mag hd h.encoding
  obtain ⟨hmag, -, -⟩ := Desc.mag_fields hd (zext64 (narrow Rom.table.d d a)).toNat
  rw [hsplit, hmag, h.sign, h.rexp, h.rmant, ← Nat.add_assoc, Desc.emax]

variable {src : Desc}

/-- The result of CVTN on an infinity (R84). -/
theorem narrow_inf_toNat (ha : src.isInf a = true) : (zext64 (narrow src d a)).toNat =
    src.sign a * 2 ^ (d.total - 1) + (2 ^ d.exp - 1) * 2 ^ d.mant := by
  have hnan : ¬src.isNan a = true := fun hn => (Desc.isNan_iff.mp hn).2 (Desc.isInf_iff.mp ha).2
  have hlt : d.inf < 2 ^ (d.total - 1) := by
    rw [Desc.inf_eq]
    exact Desc.mag_lt_of_fields hd (f := 0) (Nat.sub_lt (Nat.two_pow_pos _) one_pos) (Nat.two_pow_pos _)
  rw [narrow, if_neg hnan, if_pos ha, Desc.signWord_toNat hd (Desc.sign_lt_two _ a) hlt, Desc.inf_eq]

/-- The result of CVTN on a zero (R84). -/
theorem narrow_zero_toNat (hfin : src.isFinite a = true) (ha : src.isZero a = true) :
    (zext64 (narrow src d a)).toNat = src.sign a * 2 ^ (d.total - 1) := by
  obtain ⟨hnan, hinf⟩ := Desc.not_isNan_not_isInf_of_isFinite hfin
  have hword := Desc.signWord_toNat hd (Desc.sign_lt_two src a) (Nat.two_pow_pos (d.total - 1))
  rw [narrow, if_neg hnan, if_neg hinf, if_pos ha]
  rwa [Nat.or_zero] at hword

/-- The result of CVTN on a finite operand that is not zero is its sign above the rounded magnitude (R84). -/
theorem narrow_finite_toNat (hfin : src.isFinite a = true) (hz : src.isZero a = false)
    (hlt : narrowMagnitude src d a < 2 ^ (d.total - 1)) : (zext64 (narrow src d a)).toNat =
    src.sign a * 2 ^ (d.total - 1) + narrowMagnitude src d a := by
  obtain ⟨hnan, hinf⟩ := Desc.not_isNan_not_isInf_of_isFinite hfin
  rw [narrow, if_neg hnan, if_neg hinf, if_neg (Bool.eq_false_iff.mp hz)]
  exact Desc.signWord_toNat hd (Desc.sign_lt_two _ a) hlt

end Result

/-- Settles O20 (R84), by the precision and the class of the operand. A finite operand lies in the binade of its leading
exponent (`leadingExponent_bounds`), N is its rounding (`roundScaled_rounds_operand`), and the magnitude is the rule's,
line by line (`roundedMagnitude`). -/
theorem cvtnFollowsItsRule : Obligations.CvtnFollowsItsRule := by
  intro s p hrom d b a v
  refine ⟨packCommand_plain 0x014 p, ?_⟩
  by_cases hp : p = .D
  · subst hp
    refine ⟨s.req.a, exec_of_success ?_, fun _ => rfl, fun h => absurd rfl h⟩
    rfl
  have hd : d.Wf := table_row_wf p
  refine ⟨_, exec_cvtn hrom hp, fun h => absurd h hp, fun _ => ⟨narrow_nan_toNat hd (table_row_mant_le p),
    narrow_inf_toNat hd, fun hz => narrow_zero_toNat hd (isFinite_D_of_isZero hz) hz, fun hfin hz => ?_⟩⟩
  obtain ⟨q, hq⟩ : ∃ q, q = quantumExponent d (leadingExponent b a) := ⟨_, rfl⟩
  have hsig := significand_ne_zero hz
  obtain ⟨hlo, hhi⟩ := leadingExponent_bounds hsig
  have hround := roundScaled_rounds_operand b a q
  have hn := rounded_le hsig hq hround
  have hmg := narrowMagnitude_eq hq
  have hbound : narrowMagnitude b d a < 2 ^ (d.total - 1) := by
    rw [hmg]
    exact roundedMagnitude_lt hd (table_row_widens hp).emax_eq hn
  have hpos : 0 < q + d.mant + d.bias := hq ▸ quantumExponent_add_pos d _
  refine ⟨leadingExponent b a, q, _, narrowMagnitude b d a, hlo, hhi, hq, hround,
    narrow_finite_toNat hd hfin hz hbound, ?_⟩
  rw [hmg]
  refine ⟨fun h => ?_, fun h => ⟨fun hsub => ?_, fun hcarry => ?_, fun hge hne => ?_⟩⟩
  · rw [roundedMagnitude_of_overflow h, Desc.inf_eq]
  · exact roundedMagnitude_of_lt h hsub
  · rw [roundedMagnitude_of_carry h hcarry, Nat.cast_mul, Int.toNat_of_nonneg (by omega)]
    push_cast
    rfl
  · rw [roundedMagnitude_of_normal h hge (lt_of_le_of_ne hn hne), Nat.cast_add, Nat.cast_mul,
      Int.toNat_of_nonneg hpos.le, Nat.cast_sub hge]
    push_cast
    rfl

end Sys2Proof.Machine
end

section
/-! Proofs about the ULP distance and the comparison (42_ulp.md). -/

namespace Sys2Proof.Machine

/-! ### Encodings by their keys (R64) -/

namespace Desc

variable {d : Desc} (hd : d.Wf)

include hd

theorem total_pos : 0 < d.total := by
  obtain ⟨ht, -, -, -⟩ := hd
  omega

/-- An encoding as an integer: its key if the sign is 0, else the sign bit above the negated key (R62, R64). -/
theorem sign_key_cases {x : Nat} (hx : d.Encoding x) :
    (d.sign x = 0 ∧ 0 ≤ d.key x ∧ (x : Int) = d.key x) ∨
    (d.sign x = 1 ∧ d.key x ≤ 0 ∧ (x : Int) = d.signMask - d.key x) := by
  obtain ⟨hsplit, hlt, -⟩ := sign_mag hd hx
  rcases key_cases d x with ⟨hs, hk⟩ | ⟨hs, hk⟩
  · rw [hs, Nat.one_mul] at hsplit
    exact .inr ⟨hs, by omega, by rw [signMask]; omega⟩
  · obtain hs : d.sign x = 0 := by omega
    rw [hs, Nat.zero_mul] at hsplit
    exact .inl ⟨hs, by omega, by omega⟩

/-- Keys of encodings lie strictly within 63 bits on either side of 0. -/
theorem abs_key_lt {x : Nat} (hx : d.Encoding x) : |d.key x| < 2 ^ 63 := by
  obtain ⟨-, -, hlt⟩ := sign_mag hd hx
  obtain ⟨-, -, -, htotal⟩ := hd
  have hle : 2 ^ (d.total - 1) ≤ 2 ^ 63 := Nat.pow_le_pow_right two_pos (by omega)
  rw [abs_lt]
  rcases key_cases d x with ⟨-, hk⟩ | ⟨-, hk⟩ <;> omega

/-- A finite encoding and the one beyond it have magnitudes that fit below the sign bit. -/
theorem mag_succ_lt_of_isFinite {x : Nat} (h : d.isFinite x = true) : d.mag x + 1 < 2 ^ (d.total - 1) := by
  obtain ⟨-, -, hfin⟩ := class_of_mag hd x
  have hmag := hfin.mp h
  have hinf := mag_lt_of_fields hd (e := 2 ^ d.exp - 1) (f := 0) (Nat.sub_one_lt (by positivity)) (by positivity)
  omega

theorem zero_fields : d.Encoding 0 ∧ d.sign 0 = 0 ∧ d.mag 0 = 0 :=
  sign_mag_unique hd (by rw [Nat.zero_mul]) two_pos (by positivity)

theorem signMask_fields : d.Encoding d.signMask ∧ d.sign d.signMask = 1 ∧ d.mag d.signMask = 0 :=
  sign_mag_unique hd (by rw [Nat.one_mul, signMask, Nat.add_zero]) one_lt_two (by positivity)

theorem key_zero : d.key 0 = 0 := by
  obtain ⟨-, hs, hm⟩ := zero_fields hd
  rw [key, hs, hm]
  rfl

theorem key_signMask : d.key d.signMask = 0 := by
  obtain ⟨-, hs, hm⟩ := signMask_fields hd
  rw [key, hs, hm]
  rfl

/-- `MIN_SUB` under either sign is an encoding next to zero (R68). -/
theorem signed_minSub_key {s : Nat} (hs : s < 2) : d.Encoding (s <<< (d.total - 1) ||| d.minSub) ∧
    d.key (s <<< (d.total - 1) ||| d.minSub) = if s = 1 then -1 else 1 := by
  obtain ⟨ht, hexp, -, -⟩ := id hd
  have hone : 1 < 2 ^ (d.total - 1) := Nat.one_lt_two_pow (by omega)
  obtain ⟨hx, hsign, hmag⟩ := sign_mag_unique hd (x := s <<< (d.total - 1) ||| d.minSub)
    (by rw [minSub, ← Nat.shiftLeft_add_eq_or_of_lt hone, Nat.shiftLeft_eq]) hs hone
  refine ⟨hx, ?_⟩
  rw [key, hsign, hmag]
  rfl

theorem minSub_key : d.Encoding d.minSub ∧ d.key d.minSub = 1 := by
  simpa using signed_minSub_key hd two_pos

/-- Flipping the sign bit gives an encoding and negates the key (R102, law 2). -/
theorem flip_sign {x : Nat} (hx : d.Encoding x) :
    d.Encoding (x ^^^ d.signMask) ∧ d.key (x ^^^ d.signMask) = -d.key x := by
  obtain ⟨hmask, -, -⟩ := signMask_fields hd
  have hx' : d.Encoding (x ^^^ d.signMask) := Nat.xor_lt_two_pow hx hmask
  have hmag : d.mag (x ^^^ d.signMask) = d.mag x := by
    rw [mag_eq_mod hd hx', mag_eq_mod hd hx, Nat.xor_mod_two_pow, signMask, Nat.mod_self, Nat.xor_zero]
  have hsign : d.sign (x ^^^ d.signMask) = (d.sign x + 1) % 2 := by
    rw [sign, bit, Nat.xor_div_two_pow, signMask, Nat.div_self (by positivity), Nat.xor_mod_two_eq, sign, bit]
    omega
  have hlt := sign_lt_two d x
  refine ⟨hx', ?_⟩
  rcases key_cases d x with ⟨hs, hk⟩ | ⟨hs, hk⟩ <;>
    rcases key_cases d (x ^^^ d.signMask) with ⟨hs', hk'⟩ | ⟨hs', hk'⟩ <;> omega

end Desc

/-! ### The recursion of R100 and its closed form (R101) -/

section Recursion

variable {d : Desc} (hd : d.Wf) {a b : Nat} (ha : d.Encoding a) (hb : d.Encoding b) (signed : Bool) (depth : Nat)

include hd ha hb

/-- Steps 2 and 5: between encodings of one sign, in order, the patterns differ by the keys' difference. -/
theorem ulpSteps_of_sign_eq (hsign : d.sign a = d.sign b) (hle : d.key a ≤ d.key b) :
    ulpSteps d signed (depth + 1) a b = d.key b - d.key a := by
  have hpattern : |(a : Int) - b| = d.key b - d.key a := by
    obtain ⟨hsa, -, ea⟩ | ⟨hsa, -, ea⟩ := Desc.sign_key_cases hd ha <;>
      obtain ⟨hsb, -, eb⟩ | ⟨hsb, -, eb⟩ := Desc.sign_key_cases hd hb
    case inl.inl => rw [ea, eb, abs_sub_comm, abs_of_nonneg (by omega)]
    case inr.inr => rw [ea, eb, sub_sub_sub_cancel_left, abs_of_nonneg (by omega)]
    all_goals omega
  rw [ulpSteps, if_neg (not_lt.mpr hle), if_neg (not_ne_iff.mpr hsign), hpattern]
  split
  · omega
  · rfl

/-- Step 4: in order, encodings of different signs lie on either side of the zeros, and each half is of one sign. -/
theorem ulpSteps_of_key_lt (hlt : d.key a < d.key b) :
    ulpSteps d signed (depth + 2) a b = d.key b - d.key a := by
  by_cases hsign : d.sign a = d.sign b
  · exact ulpSteps_of_sign_eq hd ha hb signed (depth + 1) hsign hlt.le
  have hsides : (d.sign a = 1 ∧ d.key a ≤ 0) ∧ d.sign b = 0 ∧ 0 ≤ d.key b := by
    obtain ⟨hsa, ka, -⟩ | ⟨hsa, ka, -⟩ := Desc.sign_key_cases hd ha <;>
      obtain ⟨hsb, kb, -⟩ | ⟨hsb, kb, -⟩ := Desc.sign_key_cases hd hb <;> omega
  obtain ⟨⟨hsa, hka⟩, hsb, hkb⟩ := hsides
  obtain ⟨hmask, hsm, -⟩ := Desc.signMask_fields hd
  obtain ⟨hzero, hsz, -⟩ := Desc.zero_fields hd
  have hlow := ulpSteps_of_sign_eq hd ha hmask signed depth (hsa.trans hsm.symm) (by rwa [Desc.key_signMask hd])
  have hhigh := ulpSteps_of_sign_eq hd hzero hb signed depth (hsz.trans hsb.symm) (by rwa [Desc.key_zero hd])
  rw [ulpSteps, if_neg hlt.ne, if_neg hlt.not_gt, if_pos hsign, hlow, hhigh, Desc.key_signMask hd, Desc.key_zero hd]
  omega

/-- Step 3: operands out of order are swapped, and the signed distance negated, so the recursion is the difference of
keys in every case. -/
theorem ulpDiff_eq_key_sub : ulpDiff d signed a b = if signed then d.key b - d.key a else |d.key b - d.key a| := by
  rcases lt_trichotomy (d.key a) (d.key b) with hlt | heq | hgt
  · rw [ulpDiff, ulpSteps_of_key_lt hd ha hb signed 2 hlt, abs_of_pos (by omega), ite_self]
  · rw [ulpDiff, ulpSteps, if_pos heq, heq, sub_self, abs_zero, ite_self]
  · rw [ulpDiff, ulpSteps, if_neg hgt.ne', if_pos hgt, ulpSteps_of_key_lt hd hb ha signed 1 hgt,
      abs_of_neg (by omega), neg_sub]
    dsimp only
    rw [neg_sub]

theorem ulpDiff_signed : ulpDiff d true a b = d.key b - d.key a := ulpDiff_eq_key_sub hd ha hb true

theorem ulpDiff_unsigned : ulpDiff d false a b = |d.key b - d.key a| := ulpDiff_eq_key_sub hd ha hb false

/-- Signed or not, the distance has the magnitude of the keys' difference. -/
theorem natAbs_ulpDiff : (ulpDiff d signed a b).natAbs = (d.key b - d.key a).natAbs := by
  rw [ulpDiff_eq_key_sub hd ha hb]
  cases signed with
  | false => exact Int.natAbs_abs _
  | true => rfl

/-- The distance is negative only if it is signed and b lies below a. -/
theorem decide_ulpDiff_neg : decide (ulpDiff d signed a b < 0) = (signed && decide (d.key b < d.key a)) := by
  rw [ulpDiff_eq_key_sub hd ha hb]
  cases signed with
  | false => exact decide_eq_false (not_lt.mpr (abs_nonneg _))
  | true => exact decide_eq_decide.mpr sub_neg

end Recursion

/-- Settles O27 (R101), step by step of the recursion (`ulpDiff_eq_key_sub`); it holds of infinities and NaNs too. -/
theorem ulpDiffClosedForm : Obligations.UlpDiffClosedForm :=
  fun p _ _ ha hb _ _ =>
    ⟨ulpDiff_unsigned (table_row_wf p) ha hb, ulpDiff_signed (table_row_wf p) ha hb⟩

/-! ### The laws of the distance (R102) -/

section Neighbour

variable {d : Desc} (hd : d.Wf) {x : Nat} (hx : d.Encoding x)

include hd hx

/-- One pattern up, within the magnitudes of a sign, is one key away from zero. -/
theorem succ_encoding_key (h : d.mag x + 1 < 2 ^ (d.total - 1)) :
    d.Encoding (x + 1) ∧ d.key (x + 1) = if d.sign x = 1 then d.key x - 1 else d.key x + 1 := by
  obtain ⟨hsplit, hs, -⟩ := Desc.sign_mag hd hx
  obtain ⟨hx', hs', hm'⟩ := Desc.sign_mag_unique hd (x := x + 1) (s := d.sign x) (g := d.mag x + 1) (by omega) hs h
  refine ⟨hx', ?_⟩
  rw [Desc.key, Desc.key, hs', hm']
  split <;> omega

/-- One pattern down from a nonzero magnitude is one key nearer to zero. -/
theorem pred_encoding_key (h : d.mag x ≠ 0) :
    d.Encoding (x - 1) ∧ d.key (x - 1) = if d.sign x = 1 then d.key x + 1 else d.key x - 1 := by
  obtain ⟨hsplit, hs, hlt⟩ := Desc.sign_mag hd hx
  obtain ⟨hx', hs', hm'⟩ := Desc.sign_mag_unique hd (x := x - 1) (s := d.sign x) (g := d.mag x - 1) (by omega) hs
    (by omega)
  refine ⟨hx', ?_⟩
  rw [Desc.key, Desc.key, hs', hm']
  split <;> omega

/-- The result of NEXT on a finite x is one key from x, toward y (R120). -/
theorem nextToward_encoding_key {y : Nat} (hy : d.Encoding y) (hfin : d.isFinite x = true)
    (hny : d.isNan y = false) (hne : d.key x ≠ d.key y) : d.Encoding (nextToward d x y) ∧
    d.key (nextToward d x y) = if d.key x < d.key y then d.key x + 1 else d.key x - 1 := by
  obtain ⟨hnx, -⟩ := Desc.not_isNan_not_isInf_of_isFinite hfin
  rw [nextToward, if_neg hnx, if_neg (Bool.eq_false_iff.mp hny), if_neg hne]
  have hkx := Desc.key_cases d x
  by_cases hz : d.mag x = 0
  · obtain ⟨hr, hkr⟩ := Desc.signed_minSub_key hd (Desc.sign_lt_two d y)
    rw [if_pos hz]
    refine ⟨hr, ?_⟩
    rw [hkr]
    obtain ⟨hs, hk, -⟩ | ⟨hs, hk, -⟩ := Desc.sign_key_cases hd hy <;> rw [hs] <;> split <;> omega
  · obtain ⟨hup, hkup⟩ := succ_encoding_key hd hx (Desc.mag_succ_lt_of_isFinite hd hfin)
    obtain ⟨hdown, hkdown⟩ := pred_encoding_key hd hx hz
    rw [if_neg hz]
    -- Away from zero is one pattern up, toward zero one down.
    by_cases hlt : d.key x < d.key y <;> by_cases hs : d.sign x = 1 <;> simp [*]

end Neighbour

/-- Settles O29 (R102): each law is one of keys, by the closed form. Flipping the sign negates a key (`Desc.flip_sign`),
equal values are equal keys (`Desc.value_eq_iff_key`), and NEXT moves by one key (`nextToward_encoding_key`). -/
theorem ulpDistanceLaws : Obligations.UlpDistanceLaws := by
  intro p a b c ha hb hc hfa d
  have hd : d.Wf := table_row_wf p
  have hna := Bool.eq_false_iff.mpr (Desc.not_isNan_not_isInf_of_isFinite hfa).1
  obtain ⟨hmask, -, -⟩ := Desc.signMask_fields hd
  obtain ⟨hzero, -, -⟩ := Desc.zero_fields hd
  obtain ⟨hmin, hkmin⟩ := Desc.minSub_key hd
  refine ⟨fun hfb => ⟨?symmetry, ?antisymmetry, ?flip, ?identity, fun _ => ?triangle⟩, ?zeros, ?subnormal,
    fun hnb hne hfin => ?neighbour⟩
  case symmetry => rw [ulpDiff_unsigned hd ha hb, ulpDiff_unsigned hd hb ha, abs_sub_comm]
  case antisymmetry => rw [ulpDiff_signed hd ha hb, ulpDiff_signed hd hb ha, neg_sub]
  case flip =>
    obtain ⟨ha', hka'⟩ := Desc.flip_sign hd ha
    obtain ⟨hb', hkb'⟩ := Desc.flip_sign hd hb
    rw [ulpDiff_signed hd ha' hb', ulpDiff_signed hd ha hb, hka', hkb', neg_sub_neg, neg_sub]
  case identity =>
    have hnb := Bool.eq_false_iff.mpr (Desc.not_isNan_not_isInf_of_isFinite hfb).1
    rw [ulpDiff_unsigned hd ha hb, Desc.value_eq_iff_key hd ha hb hna hnb, abs_eq_zero, sub_eq_zero, eq_comm]
  case triangle =>
    rw [ulpDiff_unsigned hd ha hc, ulpDiff_unsigned hd ha hb, ulpDiff_unsigned hd hb hc, add_comm]
    exact abs_sub_le _ _ _
  case zeros => rw [ulpDiff_unsigned hd hzero hmask, Desc.key_zero hd, Desc.key_signMask hd, sub_self, abs_zero]
  case subnormal => rw [ulpDiff_unsigned hd hzero hmin, Desc.key_zero hd, hkmin, sub_zero, abs_one]
  case neighbour =>
    have hkey := mt (Desc.value_eq_iff_key hd ha hb hna hnb).mpr hne
    obtain ⟨hr, hkr⟩ := nextToward_encoding_key hd ha hb hfa hnb hkey
    rw [ulpDiff_unsigned hd ha hr, hkr]
    split
    · rw [add_sub_cancel_left, abs_one]
    · rw [sub_sub_cancel_left, abs_neg, abs_one]

/-! ### Commands of two typed operands -/

section Operands

variable {d : Desc} {a b : Word}

/-- Two typed operands that are encodings read as themselves (R47, R51). -/
theorem bind_typed_of_lt {α : Type} (hd : d.Wf) (ha : d.Encoding a.toNat) (hb : d.Encoding b.toNat)
    (k : Nat → Nat → Except Err α) :
    (typed d a >>= fun x => typed d b >>= fun y => k x y) = k a.toNat b.toNat := by
  rw [typed_of_lt (Desc.total_pos hd) ha, typed_of_lt (Desc.total_pos hd) hb]
  rfl

/-- Two typed operands of which one is no encoding raise RANGE, before anything else is looked at (R47, R51). -/
theorem bind_typed_of_ge {α : Type} (hd : d.Wf) (h : 2 ^ d.total ≤ a.toNat ∨ 2 ^ d.total ≤ b.toNat)
    (k : Nat → Nat → Except Err α) :
    (typed d a >>= fun x => typed d b >>= fun y => k x y) = .error .range := by
  rcases le_or_gt (2 ^ d.total) a.toNat with ha | ha
  · rw [typed_of_ge ha]
    rfl
  · rw [typed_of_lt (Desc.total_pos hd) ha, typed_of_ge (h.resolve_left (not_le.mpr ha))]
    rfl

end Operands

/-! ### ULPD and ULPDS (R100) -/

section Ulpd

variable {d : Desc} (hd : d.Wf) {a b : Word} (signed : Bool)

include hd

/-- The magnitude of a distance fits a response word (R100). -/
theorem zext64_natAbs_key_sub {x y : Nat} (hx : d.Encoding x) (hy : d.Encoding y) :
    ((zext64 (d.key y - d.key x).natAbs).toNat : Int) = |d.key y - d.key x| := by
  have hkx := abs_lt.mp (Desc.abs_key_lt hd hx)
  have hky := abs_lt.mp (Desc.abs_key_lt hd hy)
  rw [zext64_toNat_of_lt (by omega), Int.natCast_natAbs]

theorem ulpd_of_range (h : 2 ^ d.total ≤ a.toNat ∨ 2 ^ d.total ≤ b.toNat) : ulpd d signed a b = .error .range :=
  bind_typed_of_ge hd h _

variable (ha : d.Encoding a.toNat) (hb : d.Encoding b.toNat)

include ha hb

theorem ulpd_of_not_finite (h : d.isFinite a.toNat = false ∨ d.isFinite b.toNat = false) :
    ulpd d signed a b = .error .nonfinite := by
  rw [ulpd, bind_typed_of_lt hd ha hb, if_pos (by simpa using h)]

theorem ulpd_of_finite (hfa : d.isFinite a.toNat = true) (hfb : d.isFinite b.toNat = true) :
    ulpd d signed a b = .ok (.success (zext64 (d.key b.toNat - d.key a.toNat).natAbs)
      { neg := signed && decide (d.key b.toNat < d.key a.toNat) }) := by
  rw [ulpd, bind_typed_of_lt hd ha hb, if_neg (by simp [hfa, hfb])]
  dsimp only
  rw [natAbs_ulpDiff hd ha hb, decide_ulpDiff_neg hd ha hb]
  rfl

end Ulpd

/-- ULPDS's encoding: ULPD's with SGN set (R43, R100). -/
theorem encode_ulpds (p : Prec) : encode (.ulpds p) = BitVec.ofNat 32 (0x420 ||| p.code <<< 8) := by
  cases p <;> rfl

section Exec

variable {s : State} (p : Prec) (hrom : s.rom = Rom.table)

include hrom

theorem exec_ulpd : exec (.ulpd p) s = s.answer (ulpd (Rom.table.row p) false s.req.a s.req.b) := by
  rw [exec_answers, commandResult, hrom]

theorem exec_ulpds : exec (.ulpds p) s = s.answer (ulpd (Rom.table.row p) true s.req.a s.req.b) := by
  rw [exec_answers, commandResult, hrom]

theorem exec_cmpu : exec (.cmpu p) s = s.answer (cmpu (Rom.table.row p) s.req.a s.req.b s.req.c) := by
  rw [exec_answers, commandResult, hrom]

end Exec

/-- Settles O28 (R100), by the classes of the operands: a word that is no encoding (`ulpd_of_range`), an operand that is
not finite (`ulpd_of_not_finite`), and two finite ones, whose distance `zext64_natAbs_key_sub` puts into RES. -/
theorem ulpdReturnsTheDistance : Obligations.UlpdReturnsTheDistance := by
  intro s p hrom d a b
  have hd : d.Wf := table_row_wf p
  rw [exec_ulpd p hrom, exec_ulpds p hrom]
  refine ⟨packCommand_plain 0x020 p, encode_ulpds p, fun ha hb hfa hfb => ⟨_, zext64_natAbs_key_sub hd ha hb, ?_, ?_⟩,
    fun h => ?_, fun ha hb h => ?_⟩
  · rw [ulpd_of_finite hd false ha hb hfa hfb, answer_ok, success_negative]
    rfl
  · rw [ulpd_of_finite hd true ha hb hfa hfb, answer_ok, success_negative, Bool.true_and]
    simp only [decide_eq_true_eq]
    rfl
  · rw [ulpd_of_range hd false h, ulpd_of_range hd true h, answer_error, error_words]
    exact ⟨rfl, rfl⟩
  · rw [ulpd_of_not_finite hd false ha hb h, ulpd_of_not_finite hd true ha hb h, answer_error, error_words]
    exact ⟨rfl, rfl⟩

/-! ### CMPU (R103) -/

section Cmpu

variable {d : Desc} (hd : d.Wf) {a b c : Word}

include hd

theorem cmpu_of_range (h : 2 ^ d.total ≤ a.toNat ∨ 2 ^ d.total ≤ b.toNat) : cmpu d a b c = .error .range :=
  bind_typed_of_ge hd h _

variable (ha : d.Encoding a.toNat) (hb : d.Encoding b.toNat)

include ha hb

theorem cmpu_of_negative (h : c.toInt < 0) : cmpu d a b c = .error .negtol := by
  rw [cmpu, bind_typed_of_lt hd ha hb, tolerance, sval64_eq_toInt]
  exact if_pos h

variable (hc : 0 ≤ c.toInt)

include hc

theorem cmpu_of_not_finite (h : d.isFinite a.toNat = false ∨ d.isFinite b.toNat = false) :
    cmpu d a b c = .error .nonfinite := by
  rw [cmpu, bind_typed_of_lt hd ha hb, tolerance, sval64_eq_toInt]
  dsimp only
  rw [if_neg (not_lt.mpr hc), if_pos (by simpa using h)]

theorem cmpu_of_finite (hfa : d.isFinite a.toNat = true) (hfb : d.isFinite b.toNat = true) :
    let close := decide (|d.key b.toNat - d.key a.toNat| ≤ c.toInt)
    cmpu d a b c = .ok (.success (zext64 close.toNat) { true' := close }) := by
  rw [cmpu, bind_typed_of_lt hd ha hb, tolerance, sval64_eq_toInt]
  dsimp only
  rw [if_neg (not_lt.mpr hc), if_neg (by simp [hfa, hfb]), ulpDiff_unsigned hd ha hb]
  rfl

end Cmpu

/-- Settles O30 (R103), by the errors in their order (`cmpu_of_range`, `cmpu_of_negative`, `cmpu_of_not_finite`) and then
by the comparison (`cmpu_of_finite`). -/
theorem cmpuComparesWithTheTolerance : Obligations.CmpuComparesWithTheTolerance := by
  intro s p hrom d a b tol
  have hd : d.Wf := table_row_wf p
  rw [exec_cmpu p hrom]
  refine ⟨packCommand_plain 0x021 p, fun ha hb hc hfa hfb => ?_, fun h => ?_, fun ha hb hc => ?_, fun ha hb hc h => ?_⟩
  · rw [cmpu_of_finite hd ha hb hc hfa hfb, answer_ok, success_true]
    by_cases h : |d.key b - d.key a| ≤ tol
    · rw [if_pos h, decide_eq_true h]
      rfl
    · rw [if_neg h, decide_eq_false h]
      rfl
  · rw [cmpu_of_range hd h, answer_error, error_words]
    rfl
  · rw [cmpu_of_negative hd ha hb hc, answer_error, error_words]
    rfl
  · rw [cmpu_of_not_finite hd ha hb hc h, answer_error, error_words]
    rfl

/-! ### The law of the comparison (R104) -/

section ResultOf

variable {i : Instr} {a b c : Word}

/-- RES of a command that succeeds. -/
theorem resultOf_of_success {w : Word} {f : StatusFields} (hf : f.err < 16)
    (h : commandResult i Rom.table ⟨encode i, a, b, c⟩ = .ok (.success w f)) : resultOf i a b c = some w := by
  rw [resultOf, execResponse_encode, h, responseOf_ok]
  simp only [success_flags w hf, if_true, success_res]

/-- A command that raises an error has no result. -/
theorem resultOf_of_error {e : Err} (h : commandResult i Rom.table ⟨encode i, a, b, c⟩ = .error e) :
    resultOf i a b c = none := by
  rw [resultOf, execResponse_encode, h, responseOf_error]
  cases e <;> rfl

end ResultOf

/-- A tolerance that a word holds as a natural number, less one. -/
theorem toInt_sub_one_of_lt {w : Word} (h : w.toNat < 2 ^ 63) : (w - 1).toInt = w.toNat - 1 := by
  rw [BitVec.toInt_sub, BitVec.toInt_eq_toNat_of_lt (by omega)]
  exact Int.bmod_eq_of_le_mul_two (by simp; omega) (by simp; omega)

/-- RES of CMPU on finite operands, with a tolerance that is not negative (R103). -/
theorem resultOf_cmpu {p : Prec} {a b c : Word} (ha : (Rom.table.row p).Encoding a.toNat)
    (hb : (Rom.table.row p).Encoding b.toNat) (hfa : (Rom.table.row p).isFinite a.toNat = true)
    (hfb : (Rom.table.row p).isFinite b.toNat = true) (hc : 0 ≤ c.toInt) :
    resultOf (.cmpu p) a b c =
      some (zext64 (decide (|(Rom.table.row p).key b.toNat - (Rom.table.row p).key a.toNat| ≤ c.toInt)).toNat) :=
  resultOf_of_success (Nat.zero_lt_succ 15) (cmpu_of_finite (table_row_wf p) ha hb hc hfa hfb)

/-- Settles O31 (R104): RES of ULPD is the distance (`zext64_natAbs_key_sub`), which CMPU compares with the tolerance, and
one less than a distance of 0 is a negative tolerance. -/
theorem compareUlpLaw : Obligations.CompareUlpLaw := by
  intro p a b ha hb hfa hfb
  have hd := table_row_wf p
  have hdist := zext64_natAbs_key_sub hd ha hb
  refine ⟨_, resultOf_of_success (Nat.zero_lt_succ 15) (ulpd_of_finite hd false ha hb hfa hfb), fun hlt => ?_⟩
  generalize zext64 _ = w at hdist hlt ⊢
  have hself : w.toInt = w.toNat := BitVec.toInt_eq_toNat_of_lt (by omega)
  have hless := toInt_sub_one_of_lt hlt
  refine ⟨?_, fun hpos => ?_, fun hzero => resultOf_of_error (cmpu_of_negative hd ha hb (c := w - 1) (by omega))⟩
  · rw [resultOf_cmpu ha hb hfa hfb (by omega), decide_eq_true (by omega)]
    rfl
  · rw [resultOf_cmpu ha hb hfa hfb (by omega), decide_eq_false (by omega)]
    rfl

end Sys2Proof.Machine
end

section
/-! Proofs about the adjacent-value engine (43_nextafter.md). -/

namespace Sys2Proof.Machine

/-! ### Encodings that NEXT meets (R64, R65) -/

namespace Desc

variable {d : Desc} (hd : d.Wf)

include hd

/-- The encodings that are not NaN are those with keys between the infinities, the infinities included (R63, R64). -/
theorem isNan_eq_false_iff_abs_key {x : Nat} : d.isNan x = false ↔ |d.key x| ≤ d.inf := by
  obtain ⟨hnan, -, -⟩ := class_of_mag hd x
  rw [← inf_eq] at hnan
  rw [← Bool.not_eq_true, hnan, not_lt, abs_le]
  rcases key_cases d x with ⟨-, hk⟩ | ⟨-, hk⟩ <;> omega

/-- `MIN_SUB` under a sign bit: the bits do not overlap (R68). -/
theorem signed_minSub_eq (s : Nat) : s <<< (d.total - 1) ||| d.minSub = s * 2 ^ (d.total - 1) + 1 := by
  obtain ⟨ht, hexp, -, -⟩ := hd
  have hone : 1 < 2 ^ (d.total - 1) := Nat.one_lt_two_pow (by omega)
  rw [minSub, ← Nat.shiftLeft_add_eq_or_of_lt hone, Nat.shiftLeft_eq]

/-- The quiet bit lies within the encoding (R65). -/
theorem quiet_encoding {x : Nat} (hx : d.Encoding x) : d.Encoding (d.quiet x) := by
  obtain ⟨ht, hexp, -, -⟩ := hd
  exact Nat.or_lt_two_pow hx (Nat.pow_lt_pow_right one_lt_two (by omega))

end Desc

/-! ### The four rules (R120) -/

section Rules

variable {d : Desc} {x y : Nat}

theorem nextToward_of_nan_left (hnx : d.isNan x = true) : nextToward d x y = d.quiet x := if_pos hnx

theorem nextToward_of_nan_right (hnx : d.isNan x = false) (hny : d.isNan y = true) :
    nextToward d x y = d.quiet y := by
  rw [nextToward, hnx, if_neg Bool.false_ne_true, if_pos hny]

variable (hnx : d.isNan x = false) (hny : d.isNan y = false)

include hnx hny

theorem nextToward_of_key_eq (h : d.key x = d.key y) : nextToward d x y = y := by
  rw [nextToward, hnx, hny, if_neg Bool.false_ne_true, if_neg Bool.false_ne_true, if_pos h]

variable (hne : d.key x ≠ d.key y)

include hne

theorem nextToward_of_mag_zero (hz : d.mag x = 0) :
    nextToward d x y = d.sign y <<< (d.total - 1) ||| d.minSub := by
  rw [nextToward, hnx, hny, if_neg Bool.false_ne_true, if_neg Bool.false_ne_true, if_neg hne, if_pos hz]

/-- Rule 4: one pattern down if y lies on zero's side of x, else one up. -/
theorem nextToward_of_mag_ne_zero (hz : d.mag x ≠ 0) :
    nextToward d x y = if d.key x < d.key y ↔ d.sign x = 1 then x - 1 else x + 1 := by
  rw [nextToward, hnx, hny, if_neg Bool.false_ne_true, if_neg Bool.false_ne_true, if_neg hne, if_neg hz]
  by_cases hlt : d.key x < d.key y <;> by_cases hs : d.sign x = 1 <;> simp [hlt, hs]

end Rules

/-! ### The neighbour (R121) -/

section Neighbour

variable {d : Desc} (hd : d.Wf) {x y : Nat} (hx : d.Encoding x)

include hd hx

/-- A nonzero magnitude leaves a pattern to step down to. -/
theorem pos_of_mag_ne_zero (hz : d.mag x ≠ 0) : 0 < x := by
  obtain ⟨hsplit, -, -⟩ := Desc.sign_mag hd hx
  omega

variable (hy : d.Encoding y) (hnx : d.isNan x = false) (hny : d.isNan y = false) (hne : d.key x ≠ d.key y)

include hy hnx hny hne

/-- The result of NEXT is one key from x, toward y. From an infinity every other key lies on zero's side. -/
theorem nextToward_encoding_key_of_not_isNan : d.Encoding (nextToward d x y) ∧
    d.key (nextToward d x y) = if d.key x < d.key y then d.key x + 1 else d.key x - 1 := by
  obtain hfin | hinf | hnan := d.isFinite_or_isInf_or_isNan x
  · exact nextToward_encoding_key hd hx hy hfin hny hne
  · obtain ⟨-, hmag, -⟩ := Desc.class_of_mag hd x
    have hmag : d.mag x = d.inf := (hmag.mp hinf).trans d.inf_eq.symm
    have hpos := Desc.inf_pos hd
    have hky := abs_le.mp ((Desc.isNan_eq_false_iff_abs_key hd).mp hny)
    have hdown : d.key x < d.key y ↔ d.sign x = 1 := by
      rcases Desc.key_cases d x with ⟨hs, hk⟩ | ⟨hs, hk⟩ <;> omega
    rw [nextToward_of_mag_ne_zero hnx hny hne (by omega), if_pos hdown, if_congr hdown rfl rfl]
    exact pred_encoding_key hd hx (by omega)
  · exact absurd hnan (Bool.eq_false_iff.mp hnx)

/-- The result of NEXT keeps the sign bit of x, and takes that of y where x is a zero. -/
theorem nextToward_sign : d.sign (nextToward d x y) = if d.mag x = 0 then d.sign y else d.sign x := by
  obtain ⟨hr, hkr⟩ := nextToward_encoding_key_of_not_isNan hd hx hy hnx hny hne
  have hr' := Desc.sign_key_cases hd hr
  by_cases hz : d.mag x = 0
  · -- The key of the result is 1 or -1, on y's side of 0.
    have hy' := Desc.sign_key_cases hd hy
    have hkx := Desc.key_cases d x
    rw [if_pos hz]
    omega
  · -- One pattern and one key from x, the result lies on x's side of the sign mask.
    have hx' := Desc.sign_key_cases hd hx
    have hkx := Desc.key_cases d x
    have hmask : 0 < d.signMask := Nat.two_pow_pos _
    have hstep := nextToward_of_mag_ne_zero hnx hny hne hz
    rw [if_neg hz]
    split at hstep <;> omega

/-- The result of NEXT is not a NaN: its key lies between those of x and y. -/
theorem nextToward_not_isNan : d.isNan (nextToward d x y) = false := by
  obtain ⟨-, hkr⟩ := nextToward_encoding_key_of_not_isNan hd hx hy hnx hny hne
  have hkx := abs_le.mp ((Desc.isNan_eq_false_iff_abs_key hd).mp hnx)
  have hky := abs_le.mp ((Desc.isNan_eq_false_iff_abs_key hd).mp hny)
  rw [Desc.isNan_eq_false_iff_abs_key hd, abs_le]
  omega

end Neighbour

/-- Settles O33 (R121): the result is one key from x toward y (`nextToward_encoding_key_of_not_isNan`), and keys are
integers, so it does not pass y and no key lies strictly between. -/
theorem nextReturnsTheNeighbour : Obligations.NextReturnsTheNeighbour := by
  intro p x y hx hy d r hnx hny hne
  have hd : d.Wf := table_row_wf p
  obtain ⟨hr, hkr⟩ := nextToward_encoding_key_of_not_isNan hd hx hy hnx hny hne
  refine ⟨hr, nextToward_not_isNan hd hx hy hnx hny hne, nextToward_sign hd hx hy hnx hny hne,
    fun hlt => ?_, fun hgt => ?_⟩
  · obtain hkr : d.key r = d.key x + 1 := hkr.trans (if_pos hlt)
    exact ⟨by omega, by omega, fun z _ _ => by omega⟩
  · obtain hkr : d.key r = d.key x - 1 := hkr.trans (if_neg hgt.not_gt)
    exact ⟨by omega, by omega, fun z _ _ => by omega⟩

/-! ### NEXT (R120) -/

/-- Whatever encodings it is given, NEXT returns an encoding. -/
theorem nextToward_encoding {d : Desc} (hd : d.Wf) {x y : Nat} (hx : d.Encoding x) (hy : d.Encoding y) :
    d.Encoding (nextToward d x y) := by
  cases hnx : d.isNan x with
  | true => exact nextToward_of_nan_left hnx ▸ Desc.quiet_encoding hd hx
  | false =>
    cases hny : d.isNan y with
    | true => exact nextToward_of_nan_right hnx hny ▸ Desc.quiet_encoding hd hy
    | false =>
      by_cases hk : d.key x = d.key y
      · exact (nextToward_of_key_eq hnx hny hk).symm ▸ hy
      · exact (nextToward_encoding_key_of_not_isNan hd hx hy hnx hny hk).1

section Nextafter

variable {d : Desc} (hd : d.Wf) {a b : Word}

include hd

theorem nextafter_of_range (h : 2 ^ d.total ≤ a.toNat ∨ 2 ^ d.total ≤ b.toNat) : nextafter d a b = .error .range :=
  bind_typed_of_ge hd h _

theorem nextafter_of_encoding (ha : d.Encoding a.toNat) (hb : d.Encoding b.toNat) :
    nextafter d a b = .ok (.success (zext64 (nextToward d a.toNat b.toNat))) :=
  bind_typed_of_lt hd ha hb _

/-- The result of NEXT fits a response word. -/
theorem zext64_nextToward {x y : Nat} (hx : d.Encoding x) (hy : d.Encoding y) :
    (zext64 (nextToward d x y)).toNat = nextToward d x y := by
  have hr := nextToward_encoding hd hx hy
  obtain ⟨-, -, -, htotal⟩ := hd
  exact zext64_toNat_of_lt (lt_of_lt_of_le hr (Nat.pow_le_pow_right two_pos htotal))

end Nextafter

/-- Settles O32 (R120): RES holds the result (`zext64_nextToward`), which has one lemma per rule. -/
theorem nextFollowsItsRules : Obligations.NextFollowsItsRules := by
  intro s p hrom d x y
  have hd : d.Wf := table_row_wf p
  refine ⟨packCommand_plain 0x030 p, fun hx hy => ⟨zext64 (nextToward d x y), exec_of_success ?_, ?_⟩,
    fun h => exec_of_range ?_⟩
  · rw [hrom]
    exact nextafter_of_encoding hd hx hy
  · rw [zext64_nextToward hd hx hy]
    refine ⟨nextToward_of_nan_left, nextToward_of_nan_right, fun hnx hny =>
      ⟨fun hk => ?same, fun hne hz => ?zero, fun hlt hz => ?up, fun hgt hz => ?down⟩⟩
    case same => rw [nextToward_of_key_eq hnx hny hk, zext64_toNat_self]
    case zero => rw [nextToward_of_mag_zero hnx hny hne hz, Desc.signed_minSub_eq hd]
    case up =>
      have hpos := pos_of_mag_ne_zero hd hx hz
      rw [nextToward_of_mag_ne_zero hnx hny hlt.ne hz]
      simp only [hlt, true_iff]
      split <;> omega
    case down =>
      have hpos := pos_of_mag_ne_zero hd hx hz
      rw [nextToward_of_mag_ne_zero hnx hny hgt.ne' hz]
      simp only [hgt.not_gt, false_iff, ite_not]
      split <;> omega
  · rw [hrom]
    exact nextafter_of_range hd h

end Sys2Proof.Machine
end

section
/-! Proofs about the float decomposer (44_inspector.md). -/

namespace Sys2Proof.Machine

/-- An integer in the range of a word is read back from its two's complement. -/
theorem tc64_toInt {i : Int} (hlo : -2 ^ 63 ≤ i) (hhi : i < 2 ^ 63) : (tc64 i).toInt = i := by
  rw [tc64, BitVec.toInt_ofInt]
  exact Int.bmod_eq_of_le_mul_two (by omega) (by omega)

/-- EMAX lies one farther above the bias than 0 lies below it (R60, R63). -/
theorem table_row_emax (p : Prec) : (Rom.table.row p).emax = 2 * (Rom.table.row p).bias + 1 := by
  cases p <;> rfl

/-! ### The mantissa's numerator and its size (R132, R134) -/

namespace Desc

variable {d : Desc} {v : Nat}

theorem mantissaNumerator_of_rexp_ne_zero (h : d.rexp v ≠ 0) :
    d.mantissaNumerator v = 2 ^ d.mant + d.rmant v := if_pos h

theorem mantissaNumerator_of_rexp_eq_zero (h : d.rexp v = 0) : d.mantissaNumerator v = 2 * d.rmant v :=
  if_neg (not_not_intro h)

/-- The numerator of a mantissa lies below `2^(m+1)` (R132). -/
theorem mantissaNumerator_lt (hd : d.Wf) (v : Nat) : d.mantissaNumerator v < 2 ^ (d.mant + 1) := by
  obtain ⟨-, -, hmant⟩ := mag_fields hd v
  rw [Nat.pow_succ]
  by_cases h : d.rexp v = 0
  · rw [mantissaNumerator_of_rexp_eq_zero h]
    omega
  · rw [mantissaNumerator_of_rexp_ne_zero h]
    omega

/-- The numerator of a mantissa, as a quotient: 1 is implicit unless the exponent field is 0, and then the mantissa field
is doubled (R134). -/
theorem mantissaNumerator_div (d : Desc) (v : Nat) : (d.mantissaNumerator v : ℚ) / 2 ^ d.mant =
    if d.rexp v ≠ 0 then 1 + (d.rmant v : ℚ) / 2 ^ d.mant else 2 * (d.rmant v : ℚ) / 2 ^ d.mant := by
  split
  next h =>
    rw [mantissaNumerator_of_rexp_ne_zero h]
    push_cast
    rw [add_div, div_self (by positivity)]
  next h =>
    rw [mantissaNumerator_of_rexp_eq_zero (not_not.mp h)]
    push_cast
    rfl

/-- The mantissa of an encoding with an exponent field that is not 0 lies in [1, 2), up to its sign (R134). -/
theorem mantissaNumerator_div_of_rexp_ne_zero (hd : d.Wf) (h : d.rexp v ≠ 0) :
    1 ≤ (d.mantissaNumerator v : ℚ) / 2 ^ d.mant ∧ (d.mantissaNumerator v : ℚ) / 2 ^ d.mant < 2 := by
  have hlt := mantissaNumerator_lt hd v
  have hle : 2 ^ d.mant ≤ d.mantissaNumerator v := by
    rw [mantissaNumerator_of_rexp_ne_zero h]
    exact Nat.le_add_right _ _
  rw [one_le_div (by positivity), div_lt_iff₀ (by positivity), ← pow_succ']
  exact ⟨by exact_mod_cast hle, by exact_mod_cast hlt⟩

/-- The mantissa of a subnormal encoding lies in [2^(1-m), 2 - 2^(1-m)], up to its sign: the numerator is even (R134). -/
theorem mantissaNumerator_div_of_isSub (hd : d.Wf) (h : d.isSub v = true) :
    (2 : ℚ) / 2 ^ d.mant ≤ (d.mantissaNumerator v : ℚ) / 2 ^ d.mant ∧
      (d.mantissaNumerator v : ℚ) / 2 ^ d.mant ≤ 2 - 2 / 2 ^ d.mant := by
  obtain ⟨hexp, hne⟩ : d.rexp v = 0 ∧ d.rmant v ≠ 0 := by simpa [isSub] using h
  obtain ⟨-, -, hmant⟩ := mag_fields hd v
  have hn := mantissaNumerator_of_rexp_eq_zero hexp
  have hlo : 2 ≤ d.mantissaNumerator v := by omega
  have hhi : d.mantissaNumerator v + 2 ≤ 2 * 2 ^ d.mant := by omega
  refine ⟨by gcongr; exact_mod_cast hlo, ?_⟩
  rw [le_sub_iff_add_le, ← add_div, div_le_iff₀ (by positivity)]
  exact_mod_cast hhi

/-- The mantissa scaled by IEXP is the significand at its own scale. With an exponent field of 0 the numerator is twice
the significand, and IEXP is 1 less than the exponent of the scale (R66, R134). -/
theorem significand_mul_scale_eq_mantissa (d : Desc) (v : Nat) : (d.significand v : ℚ) * (2 : ℚ) ^ d.scale v =
    (d.mantissaNumerator v : ℚ) / 2 ^ d.mant * (2 : ℚ) ^ ((d.rexp v : Int) - d.bias) := by
  rw [div_mul_eq_mul_div, mul_div_assoc, ← zpow_natCast, ← zpow_sub₀ two_ne_zero, significand, scale]
  by_cases h : d.rexp v = 0
  · have hscale : 1 - (d.bias : Int) - d.mant = 1 + (0 - d.bias - d.mant) := by ring
    rw [mantissaNumerator_of_rexp_eq_zero h, if_pos h, if_pos h, h, hscale, zpow_add₀ two_ne_zero]
    push_cast
    ring
  · rw [mantissaNumerator_of_rexp_ne_zero h, if_neg h, if_neg h]

/-- The sign factor of a value (R66) is the sign that IMNUM takes (R132). -/
theorem neg_one_pow_sign (d : Desc) (v : Nat) : (-1 : ℚ) ^ d.sign v = if d.sign v = 1 then -1 else 1 := by
  have hlt := sign_lt_two d v
  interval_cases d.sign v <;> simp

end Desc

/-! ### The words of the view (R132) -/

section View

variable {d : Desc} (hd : d.Wf) (v : Nat)

theorem inspect_res (d : Desc) (a : Word) : (inspect d a.toNat).res = a := zext64_toNat_self a

include hd

/-- A field no wider than a row fits a response word. -/
theorem zext64_field_toNat {f w : Nat} (hw : w ≤ d.total) (hf : f < 2 ^ w) : (zext64 f).toNat = f := by
  obtain ⟨-, -, -, htotal⟩ := hd
  exact zext64_toNat_of_lt (lt_of_lt_of_le hf (Nat.pow_le_pow_right two_pos (hw.trans htotal)))

theorem inspect_irexp_toNat : (inspect d v).irexp.toNat = d.rexp v := by
  obtain ⟨-, hexp, -⟩ := Desc.mag_fields hd v
  have hw : d.exp ≤ d.total := by rw [hd.1]; omega
  exact zext64_field_toNat hd hw hexp

theorem inspect_irmant_toNat : (inspect d v).irmant.toNat = d.rmant v := by
  obtain ⟨-, -, hmant⟩ := Desc.mag_fields hd v
  have hw : d.mant ≤ d.total := by rw [hd.1]; omega
  exact zext64_field_toNat hd hw hmant

/-- IEXP is exact: neither the exponent field nor the bias exceeds EMAX (R132). -/
theorem inspect_iexp_toInt (hbias : d.emax = 2 * d.bias + 1) :
    (inspect d v).iexp.toInt = (d.rexp v : Int) - d.bias := by
  obtain ⟨-, hexp, -⟩ := Desc.mag_fields hd v
  obtain ⟨ht, -, -, htotal⟩ := hd
  have hpow : 2 ^ d.exp ≤ 2 ^ 63 := Nat.pow_le_pow_right two_pos (by omega)
  rw [Desc.emax] at hbias
  exact tc64_toInt (by omega) (by omega)

/-- IMNUM is exact, and is the numerator of the mantissa with the sign of the encoding (R132). -/
theorem inspect_imnum_toInt :
    (inspect d v).imnum.toInt = (if d.sign v = 1 then -1 else 1) * (d.mantissaNumerator v : Int) := by
  have hlt := Desc.mantissaNumerator_lt hd v
  obtain ⟨ht, hexp, -, htotal⟩ := hd
  have hpow : 2 ^ (d.mant + 1) ≤ 2 ^ 63 := Nat.pow_le_pow_right two_pos (by omega)
  rw [inspect, tc64_toInt (by split <;> omega) (by split <;> omega), ite_mul, neg_one_mul, one_mul]

/-- The mantissa of the view, IMNUM / 2^m, by its sign and size (R134). -/
theorem inspect_mantissa : ((inspect d v).imnum.toInt : ℚ) / 2 ^ d.mant =
    (if d.sign v = 1 then -1 else 1) * ((d.mantissaNumerator v : ℚ) / 2 ^ d.mant) := by
  rw [inspect_imnum_toInt hd]
  push_cast
  rw [mul_div_assoc]

end View

/-! ### INSPF and INSPB (R130, R131) -/

theorem encode_inspf (p : Prec) : encode (.inspf p) = BitVec.ofNat 32 (0x840 ||| p.code <<< 8) := by
  cases p <;> rfl

theorem encode_inspb (p : Prec) : encode (.inspb p) = BitVec.ofNat 32 (0x1040 ||| p.code <<< 8) := by
  cases p <;> rfl

section Inspection

variable {d : Desc} {a : Word}

theorem inspb_of_lt (ht : 0 < d.total) (h : d.Encoding a.toNat) : inspb d a = .ok (inspect d a.toNat) := by
  rw [inspb, typed_of_lt ht h]
  rfl

theorem inspb_of_ge (h : 2 ^ d.total ≤ a.toNat) : inspb d a = .error .range := by
  rw [inspb, typed_of_ge h]
  rfl

/-- INSPF answers as INSPB does: reading a pattern back as a typed operand changes nothing (R130, R131). -/
theorem inspf_eq_inspb (ht : 0 < d.total) (a : Word) : inspf d a = inspb d a := by
  rw [inspf, inspb]
  rcases lt_or_ge a.toNat (2 ^ d.total) with h | h
  · have hback : typed d (zext64 a.toNat) = .ok a.toNat := by rw [zext64_toNat_self, typed_of_lt ht h]
    rw [typed_of_lt ht h]
    exact congrArg (· >>= fun v => pure (inspect d v)) hback
  · rw [typed_of_ge h]
    rfl

end Inspection

section Exec

variable {s : State} (p : Prec) (hrom : s.rom = Rom.table)

include hrom

theorem exec_inspb : exec (.inspb p) s = s.answer (inspb (Rom.table.row p) s.req.a) := by
  rw [exec_answers, commandResult, hrom]

theorem exec_inspf : exec (.inspf p) s = exec (.inspb p) s := by
  rw [exec_inspb p hrom, exec_answers, commandResult, hrom, inspf_eq_inspb (table_row_total_pos p)]

end Exec

/-- Settles O34 (R130, R131, R132): INSPF is INSPB (`exec_inspf`), and each word of the view has its own lemma. -/
theorem inspectorGivesTheView : Obligations.InspectorGivesTheView := by
  intro s p hrom d v
  have hd : d.Wf := table_row_wf p
  rw [exec_inspf p hrom, exec_inspb p hrom]
  refine ⟨encode_inspf p, encode_inspb p, fun hv => ?_, fun hv => ?_⟩
  · have hans : s.answer (inspb d s.req.a) = .next (s.push (inspect d v)) := by
      rw [inspb_of_lt (table_row_total_pos p) hv, answer_ok]
    refine ⟨inspect d v, hans, hans, inspect_flags d v, inspect_res d s.req.a, inspect_irexp_toNat hd v,
      inspect_irmant_toNat hd v, inspect_iexp_toInt hd v (table_row_emax p), ?_⟩
    rw [inspect_imnum_toInt hd, Desc.mantissaNumerator]
    push_cast
    rfl
  · rw [inspb_of_ge hv, answer_error, error_words]
    exact ⟨rfl, rfl⟩

/-- Settles O35 (R134): the mantissa is its size with the sign of the encoding (`inspect_mantissa`), and the size has a
formula, a range in each class and a part in the value, each a lemma about `Desc.mantissaNumerator`. -/
theorem inspectorMantissa : Obligations.InspectorMantissa := by
  intro p v hv d x mantissa
  have hd : d.Wf := table_row_wf p
  have hmant : mantissa = (if d.sign v = 1 then -1 else 1) * ((d.mantissaNumerator v : ℚ) / 2 ^ d.mant) :=
    inspect_mantissa hd v
  rw [inspect_iexp_toInt hd v (table_row_emax p), hmant]
  refine ⟨by rw [Desc.mantissaNumerator_div], fun _ => ?value, fun _ hexp => ?normal, fun hsub => ?sub,
    fun hzero => ?zero⟩
  case value =>
    rw [Desc.finiteValue, Desc.neg_one_pow_sign, mul_assoc, mul_assoc, Desc.significand_mul_scale_eq_mantissa]
  case normal =>
    obtain ⟨hlo, hhi⟩ := Desc.mantissaNumerator_div_of_rexp_ne_zero hd hexp
    split <;> constructor <;> linarith
  case sub =>
    obtain ⟨hlo, hhi⟩ := Desc.mantissaNumerator_div_of_isSub hd hsub
    have hpos : (0 : ℚ) < (d.mantissaNumerator v : ℚ) / 2 ^ d.mant := lt_of_lt_of_le (by positivity) hlo
    by_cases hs : d.sign v = 1
    · rw [if_pos hs, neg_one_mul, abs_neg, abs_of_pos hpos]
      exact ⟨hlo, hhi, iff_of_true (neg_neg_of_pos hpos) hs⟩
    · rw [if_neg hs, one_mul, abs_of_pos hpos]
      exact ⟨hlo, hhi, iff_of_false hpos.not_gt hs⟩
  case zero =>
    obtain ⟨hexp, hrmant⟩ := Desc.isZero_iff.mp hzero
    refine ⟨BitVec.eq_of_toInt_eq ?_, by rw [inspect_flags, viewFields]⟩
    rw [inspect_imnum_toInt hd, Desc.mantissaNumerator_of_rexp_eq_zero hexp, hrmant, Nat.mul_zero, Nat.cast_zero,
      mul_zero]
    rfl

/-- Settles O36 (R135): the exponent field is all ones, so the formulas are those of any exponent field that is not 0. -/
theorem inspectorOfInfinitiesAndNans : Obligations.InspectorOfInfinitiesAndNans := by
  intro p v hv hfin d x
  have hd : d.Wf := table_row_wf p
  have hemax : d.emax = 2 * d.bias + 1 := table_row_emax p
  have hexp : d.rexp v = d.emax := by simpa [Desc.isFinite] using hfin
  have hne : d.rexp v ≠ 0 := by omega
  refine ⟨?_, ?_, ?_, ?_⟩
  · have hsucc : (d.emax : Int) - d.bias = d.bias + 1 := by omega
    rw [inspect_iexp_toInt hd v hemax, hexp, hsucc]
    cases p <;> rfl
  · rw [inspect_imnum_toInt hd, Desc.mantissaNumerator_of_rexp_ne_zero hne, ite_mul, neg_one_mul, one_mul]
    push_cast
    rfl
  · rw [inspect_flags]
    exact Desc.isInf_iff.trans (and_iff_right hexp)
  · rw [inspect_flags]
    exact Desc.isNan_iff.trans (and_iff_right hexp)

/-- Settles O37 (R136): INSPF answers with the view of its operand, whose RES is the operand (`inspect_res`). -/
theorem inspectorReturnsItsOperand : Obligations.InspectorReturnsItsOperand := by
  intro p a ha
  have hpos := table_row_total_pos p
  have hview : commandResult (.inspf p) Rom.table ⟨encode (.inspf p), a, 0, 0⟩ =
      .ok (inspect (Rom.table.row p) a.toNat) := (inspf_eq_inspb hpos a).trans (inspb_of_lt hpos ha)
  rw [resultOf, execResponse_encode, hview, responseOf_ok]
  simp only [inspect_flags, viewFields, if_true, inspect_res]

end Sys2Proof.Machine
end

section
/-! Proofs about the errors (60_exceptions.md). -/

namespace Sys2Proof.Machine

/-- Settles O38 (R151): raising an error appends its error response (`raise_pushes_error`), whose STATUS is the code of
R150 and whose other words are 0 (`error_words`). -/
theorem errorResponsesHoldOnlyTheCode : Obligations.ErrorResponsesHoldOnlyTheCode := by
  intro e s
  rw [raise_pushes_error, error_words]
  cases e <;> rfl

/-! ### The error that a result reports (R152) -/

/-- A command's result is the error that is named or, with none named, a response with ERR = 0 and OK = 1. -/
def Reports (x : Except Err Response) : Option Err → Prop
  | some e => x = .error e
  | none   => ∃ r, x = .ok r ∧ r.flags.err = 0 ∧ r.flags.ok = true

theorem success_reports_none (w : Word) {f : StatusFields} (hf : f.err = 0) : Reports (.ok (.success w f)) none := by
  refine ⟨_, rfl, ?_⟩
  rw [success_flags w (by omega)]
  exact ⟨hf, rfl⟩

theorem inspect_reports_none (d : Desc) (v : Nat) : Reports (.ok (inspect d v)) none := by
  refine ⟨_, rfl, ?_⟩
  rw [inspect_flags]
  exact ⟨rfl, rfl⟩

/-- CVTN succeeds at every precision (R84). -/
theorem cvtn_reports_none (rom : Rom) (p : Prec) (a : Word) : Reports (.ok (cvtn rom p a)) none := by
  cases p <;> exact success_reports_none _ rfl

/-- A check that fails reports its error before anything after it. -/
theorem check_reports {P Q : Prop} [Decidable P] [Decidable Q] (hPQ : P ↔ Q) {e : Err} {x : Except Err Response}
    {o : Option Err} (h : Reports x o) : Reports (if P then .error e else x) (if Q then some e else o) := by
  by_cases hP : P
  · rw [if_pos hP, if_pos (hPQ.mp hP)]
    rfl
  · rw [if_neg hP, if_neg (mt hPQ.mpr hP)]
    exact h

section Operands

variable {d : Desc} (hd : d.Wf) {a : Word}

include hd

/-- Reading a typed operand reports RANGE before anything that is made of its value (R47). -/
theorem typed_reports {k : Nat → Except Err Response} {o : Option Err} (h : Reports (k a.toNat) o) :
    Reports (typed d a >>= k) (if decide (2 ^ d.total ≤ a.toNat) then some .range else o) := by
  rcases le_or_gt (2 ^ d.total) a.toNat with ha | ha
  · rw [typed_of_ge ha, if_pos (decide_eq_true ha)]
    rfl
  · rw [typed_of_lt (Desc.total_pos hd) ha, if_neg (by simpa using ha)]
    exact h

/-- BTOFS reports RANGE outside the signed range, and nothing else (R48, R83). -/
theorem btofs_reports : Reports (btofs d a)
    (if a.toInt < -2 ^ (d.total - 1) ∨ 2 ^ (d.total - 1) ≤ a.toInt then some .range else none) := by
  have hpos := Desc.total_pos hd
  obtain ⟨-, -, -, hle⟩ := hd
  split
  next h => exact btofs_of_not_mem hpos hle fun ⟨hlo, hhi⟩ => h.elim (not_lt.mpr hlo) (not_le.mpr hhi)
  next h =>
    obtain ⟨hlo, hhi⟩ := not_or.mp h
    rw [btofs_of_mem hpos hle ⟨not_lt.mp hlo, not_le.mp hhi⟩]
    exact success_reports_none _ rfl

/-- ULPD and ULPDS report RANGE on A, RANGE on B and NONFINITE, in this order (R100). -/
theorem ulpd_reports (signed : Bool) (b : Word) : Reports (ulpd d signed a b)
    (if decide (2 ^ d.total ≤ a.toNat) then some .range else if decide (2 ^ d.total ≤ b.toNat) then some .range
      else if !d.isFinite a.toNat || !d.isFinite b.toNat then some .nonfinite else none) :=
  typed_reports hd <| typed_reports hd <| check_reports Iff.rfl <| success_reports_none _ rfl

/-- CMPU reports NEGTOL after the ranges and before NONFINITE (R103). -/
theorem cmpu_reports (b c : Word) : Reports (cmpu d a b c)
    (if decide (2 ^ d.total ≤ a.toNat) then some .range else if decide (2 ^ d.total ≤ b.toNat) then some .range
      else if c.toInt < 0 then some .negtol
      else if !d.isFinite a.toNat || !d.isFinite b.toNat then some .nonfinite else none) :=
  have hneg : tolerance c < 0 ↔ c.toInt < 0 := by rw [tolerance, sval64_eq_toInt]
  typed_reports hd <| typed_reports hd <| check_reports hneg <| check_reports Iff.rfl <| success_reports_none _ rfl

end Operands

/-- Every command reports the error that the order of R152 gives it, and succeeds if that order gives it none. -/
theorem commandResult_reports (i : Instr) (r : Request) :
    Reports (commandResult i Rom.table r) (expectedError i r.a r.b r.c) := by
  cases i with
  | pdesc p => exact success_reports_none _ rfl
  | ftob p | ftobs p | btof p | cvtw p => exact typed_reports (table_row_wf p) (success_reports_none _ rfl)
  | btofs p => exact btofs_reports (table_row_wf p)
  | cvtn p => exact cvtn_reports_none Rom.table p r.a
  | ulpd p => exact ulpd_reports (table_row_wf p) false r.b
  | ulpds p => exact ulpd_reports (table_row_wf p) true r.b
  | cmpu p => exact cmpu_reports (table_row_wf p) r.b r.c
  | next p =>
    exact typed_reports (table_row_wf p) (typed_reports (table_row_wf p) (success_reports_none _ rfl))
  | inspf p =>
    rw [commandResult, inspf_eq_inspb (table_row_total_pos p)]
    exact typed_reports (table_row_wf p) (inspect_reports_none _ _)
  | inspb p => exact typed_reports (table_row_wf p) (inspect_reports_none _ _)

/-- Settles O39 (R152): a word that names no command is rejected with its check's error (`accept_of_decode_error`), and
a command answers what its result reports (`commandResult_reports`). -/
theorem firstErrorIsReported : Obligations.FirstErrorIsReported := by
  refine ⟨fun s r h => ?_, fun s i h => accept_of_decode_ok h, fun i s hrom => ?_⟩
  · rw [accept_of_decode_error h, raise_pushes_error, error_words]
    cases r <;> rfl
  · have h := commandResult_reports i s.req
    rw [exec_answers, hrom]
    generalize expectedError i s.req.a s.req.b s.req.c = o at h
    cases o with
    | some e =>
      have hx : commandResult i Rom.table s.req = .error e := h
      rw [hx, answer_error, error_words]
    | none =>
      obtain ⟨x, hx, herr, hok⟩ := h
      exact ⟨x, by rw [hx, answer_ok], herr, hok⟩

end Sys2Proof.Machine
end

section
/-! Proofs about reset, and about what the channels deliver (70_reset_and_hazards.md). -/

namespace Sys2Proof.Machine

/-! ### Transfers (R173, R174) -/

section Transfers

variable {s : State}

/-- A response is offered only if Q has a head, which the ports then show (R174). -/
theorem rspPorts_of_rspValid (h : s.rspValid = true) : ∃ e rest, s.q = e :: rest ∧ s.rspPorts = e.rsp := by
  cases hq : s.q with
  | nil => simp [rspValid_of_q_nil hq] at h
  | cons e rest => exact ⟨e, rest, rfl, by simp [State.rspPorts, h, hq]⟩

/-- In reset no channel transfers (R170, R173). -/
theorem transfers_inReset (hr : s.inReset = true) : s.reqTransfers = false ∧ s.rspTransfers = false := by
  obtain ⟨hready, hvalid⟩ := outputs_inReset hr
  simp [State.reqTransfers, State.rspTransfers, hready, hvalid]

/-- The condition of R173 names `rst` = 0 beside valid and ready, whose signals already imply it (R175). -/
theorem transfers_eq (s : State) :
    s.reqTransfers = (!s.inReset && s.reqValid && s.reqReady) ∧
    s.rspTransfers = (!s.inReset && s.rspValid && s.rspReady) := by
  cases hr : s.inReset with
  | true => exact transfers_inReset hr
  | false => exact ⟨rfl, rfl⟩

/-- What waits is what this edge delivers, followed by what stays. -/
theorem delivered_append_rest (s : State) :
    s.delivered ++ (if s.rspTransfers then s.q.tail else s.q).map Entry.rsp = s.q.map Entry.rsp := by
  cases ht : s.rspTransfers with
  | false => simp [State.delivered, ht]
  | true =>
    obtain ⟨hvalid, -⟩ := Bool.and_eq_true_iff.mp ht
    obtain ⟨e, rest, hq, -⟩ := rspPorts_of_rspValid hvalid
    simp [State.delivered, ht, hq]

end Transfers

/-! ### What an edge outside reset does to Q (R173) -/

/-- The answer that R173's `Exec` gives a request. -/
def answerTo (rom : Rom) (r : Request) : Response := responseOf (requestResult rom r)

theorem execResponse_eq_answerTo (rom : Rom) : execResponse rom = some ∘ answerTo rom :=
  funext (execResponse_of_result rom)

/-- Waiting changes no response. -/
theorem map_rsp_map_age (q : List Entry) : (q.map Entry.age).map Entry.rsp = q.map Entry.rsp := by
  rw [List.map_map]
  rfl

theorem step_keeps_rom {s u : State} (h : step s = .next u) : u.rom = s.rom := by
  obtain ⟨-, ⟨-, rfl⟩ | ⟨-, -, rfl⟩ | ⟨-, -, rfl⟩⟩ := step_cases h <;> simp

/-- Outside reset, what stays in Q keeps its order, and the answer to an accepted request comes behind it. -/
theorem step_moves_queue {s u : State} (hr : s.inReset = false) (h : step s = .next u) :
    u.q.map Entry.rsp =
      (if s.rspTransfers then s.q.tail else s.q).map Entry.rsp ++ s.accepted.map (answerTo s.rom) := by
  obtain ⟨-, ⟨hr', -⟩ | ⟨-, ht, rfl⟩ | ⟨-, ht, rfl⟩⟩ := step_cases h
  · simp [hr] at hr'
  · rw [State.endEdge_q, State.push_q, State.serve_q, List.map_append, map_rsp_map_age]
    simp [State.accepted, ht, answerTo]
  · rw [State.endEdge_q, State.serve_q, map_rsp_map_age]
    simp [State.accepted, ht]

/-! ### What a run delivers (R174) -/

/-- At one edge nothing is lost, made up or reordered: what waited and the answers to what is accepted are what is
delivered and what waits. -/
theorem step_conserves_responses {s u : State} (hr : s.inReset = false) (h : step s = .next u) :
    s.q.map Entry.rsp ++ s.accepted.map (answerTo s.rom) = s.delivered ++ u.q.map Entry.rsp := by
  rw [step_moves_queue hr h, ← List.append_assoc, delivered_append_rest]

/-- The same over a run, edge by edge; the answers are those of the ROM at its start, which no edge changes. -/
theorem run_conserves_responses {s t : State} {reqs : List Request} {rsps : List Response} (h : Run s reqs rsps t) :
    s.q.map Entry.rsp ++ reqs.map (answerTo s.rom) = rsps ++ t.q.map Entry.rsp := by
  induction h with
  | refl s => simp
  | @edge s t w reqs rsps hr hedge _ ih =>
    obtain ⟨u, d, hstep, rfl⟩ := hedge
    rw [State.drive_q, State.drive_rom, step_keeps_rom hstep] at ih
    calc s.q.map Entry.rsp ++ (s.accepted ++ reqs).map (answerTo s.rom)
        = (s.q.map Entry.rsp ++ s.accepted.map (answerTo s.rom)) ++ reqs.map (answerTo s.rom) := by
          rw [List.map_append, List.append_assoc]
      _ = s.delivered ++ (u.q.map Entry.rsp ++ reqs.map (answerTo s.rom)) := by
          rw [step_conserves_responses hr hstep, List.append_assoc]
      _ = (s.delivered ++ rsps) ++ w.q.map Entry.rsp := by rw [ih, List.append_assoc]

/-- A run that starts with nothing waiting delivers answers to its own requests only, in their order. -/
theorem run_from_empty_answers_requests {s t : State} {reqs : List Request} {rsps : List Response} (hq : s.q = [])
    (h : Run s reqs rsps t) : rsps <+: reqs.map (answerTo s.rom) := by
  have hall := run_conserves_responses h
  rw [hq, List.map_nil, List.nil_append] at hall
  exact ⟨_, hall.symm⟩

/-- Settles O49 (R174): the conservation law over a run (`run_conserves_responses`), by induction over its edges, and
the ports at an offer (`rspPorts_of_rspValid`). -/
theorem responsesComeInAcceptanceOrder : Obligations.ResponsesComeInAcceptanceOrder := by
  refine ⟨fun s reqs rsps t h => ?_, fun s => rspPorts_of_rspValid⟩
  rw [execResponse_eq_answerTo, ← List.map_map, ← List.map_append, run_conserves_responses h]

/-- Settles O47 (R170): an edge in reset transfers nothing and leaves Q empty, and a run from an empty Q answers its own
requests only (`run_from_empty_answers_requests`). -/
theorem resetDiscardsUndeliveredResponses : Obligations.ResetDiscardsUndeliveredResponses := by
  intro s hr hduty
  obtain ⟨hready, hvalid⟩ := outputs_inReset hr
  obtain ⟨hreq, hrsp⟩ := transfers_inReset hr
  obtain ⟨u, hu⟩ := step_goes_on hduty
  obtain ⟨hq, hrom⟩ := step_inReset hr hu
  refine ⟨hready, hvalid, by simp [State.accepted, hreq], by simp [State.delivered, hrsp], u, hu, hq, hrom,
    fun d reqs rsps t hrun => ?_⟩
  have hanswers := run_from_empty_answers_requests ((u.drive_q d).trans hq) hrun
  rw [State.drive_rom, hrom] at hanswers
  rw [execResponse_eq_answerTo, ← List.map_map]
  exact hanswers.map some

/-- Settles O48 (R173): when the channels transfer (`transfers_eq`), and the queue after an edge
(`step_moves_queue`). -/
theorem transfersMoveTheQueue : Obligations.TransfersMoveTheQueue := by
  refine ⟨transfers_eq, fun s hr hduty => ?_⟩
  obtain ⟨u, hu⟩ := step_goes_on hduty
  refine ⟨u, answerTo s.rom s.req, hu, execResponse_of_result s.rom s.req, ?_⟩
  rw [step_moves_queue hr hu, State.accepted, apply_ite (List.map (answerTo s.rom)), List.map_singleton, List.map_nil]

end Sys2Proof.Machine
end

section
/-! Proofs about the STATUS word and the wrapper's bytes (10_state.md R13, 20_memory.md R32). -/

namespace Sys2Proof.Machine

/-- The fields of a STATUS word fill its bits up to bit 13, but for bit 7 (R13). -/
theorem StatusFields.pack_reserved {f : StatusFields} (h : f.err < 16) :
    f.pack.toNat < 2 ^ 14 ∧ bit f.pack.toNat 7 = 0 := by
  have hok := f.ok.toNat_le
  have hneg := f.neg.toNat_le
  have htrue := f.true'.toNat_le
  have hsign := f.iSign.toNat_le
  have hineg := f.iNeg.toNat_le
  have hinf := f.iInf.toNat_le
  have hnan := f.iNan.toNat_le
  have hsub := f.iSub.toNat_le
  have hvalid := f.iValid.toNat_le
  simp only [pack, zext64, BitVec.toNat_ofNat, bit]
  omega

/-- Settles O7 (R13): the fields are read back (`StatusFields.unpack_pack`), and nothing else is set. -/
theorem statusHoldsItsFields : Obligations.StatusHoldsItsFields :=
  fun _ h => ⟨StatusFields.unpack_pack h, StatusFields.pack_reserved h⟩

/-! ### The wrapper (R32) -/

theorem littleBytes_length (n v : Nat) : (littleBytes n v).length = n := by
  induction n generalizing v with
  | zero => rfl
  | succ n ih => rw [littleBytes, List.length_cons, ih]

/-- Byte i of an integer is its i-th digit in base 256. -/
theorem littleBytes_getElem? {n i : Nat} (hi : i < n) (v : Nat) :
    (littleBytes n v)[i]? = some (BitVec.ofNat 8 (v / 256 ^ i)) := by
  induction n generalizing v i with
  | zero => exact absurd hi (Nat.not_lt_zero i)
  | succ n ih =>
    cases i with
    | zero => simp [littleBytes]
    | succ i =>
      rw [littleBytes, List.getElem?_cons_succ, ih (Nat.lt_of_succ_lt_succ hi), Nat.div_div_eq_div_mul, ← Nat.pow_succ']

/-- The bytes of an integer that they can hold give it back. -/
theorem ofLittleBytes_littleBytes {n v : Nat} (h : v < 256 ^ n) : ofLittleBytes (littleBytes n v) = v := by
  induction n generalizing v with
  | zero =>
    rw [Nat.pow_zero] at h
    exact (Nat.lt_one_iff.mp h).symm
  | succ n ih =>
    rw [littleBytes, ofLittleBytes, ih (Nat.div_lt_of_lt_mul (by rwa [← Nat.pow_succ'])), BitVec.toNat_ofNat]
    exact Nat.mod_add_div v 256

/-- Settles O10 (log 15), by the order: the big layout is the little one reversed. -/
theorem wrapperKeepsTheWord : Obligations.WrapperKeepsTheWord := by
  intro o n v hv
  refine ⟨?length, ?word, fun i hi => ⟨littleBytes_getElem? hi v, ?big⟩⟩
  case length =>
    cases o with
    | little => exact littleBytes_length n v
    | big => rw [wrapperBytes, List.length_reverse, littleBytes_length]
  case word =>
    cases o with
    | little => exact ofLittleBytes_littleBytes hv
    | big => rw [wrapperBytes, ofWrapperBytes, List.reverse_reverse, ofLittleBytes_littleBytes hv]
  case big =>
    have hlength := littleBytes_length n v
    rw [wrapperBytes, List.getElem?_reverse (by omega), hlength, show n - 1 - (n - 1 - i) = i by omega,
      littleBytes_getElem? hi]

end Sys2Proof.Machine
end

section
/-! Proofs about the rounding of CVTN, and about the laws of the codec (41_codec.md R84, R87). -/

namespace Sys2Proof.Machine

/-! ### The nearest integer (R84) -/

namespace RoundsHalfEvenTo

variable {r : ℚ} {n : Nat}

/-- Rounding a number that is not below an integer does not go below it. -/
theorem le_of_le (h : RoundsHalfEvenTo r n) {k : Nat} (hr : (k : ℚ) ≤ r) : k ≤ n := by
  obtain ⟨hdist, -⟩ := h
  have hn : r - n ≤ |r - n| := le_abs_self _
  exact Nat.lt_succ_iff.mp (by exact_mod_cast (by push_cast; linarith : (k : ℚ) < ((n + 1 : Nat) : ℚ)))

/-- No integer is nearer than the rounded one, and it is even where another one is equally near: two integers are at
least 1 apart, and the rounded one is at most one half away. -/
theorem nearest (h : RoundsHalfEvenTo r n) (c : Int) :
    |n - r| ≤ |c - r| ∧ (|n - r| = |c - r| → c ≠ n → Even n) := by
  obtain ⟨hdist, heven⟩ := h
  rw [abs_sub_comm] at hdist heven
  by_cases hc : c = n
  · subst hc
    exact ⟨le_rfl, fun _ hne => absurd rfl hne⟩
  · have hapart : (1 : ℚ) ≤ |(c : ℚ) - n| := by
      have hone := Int.one_le_abs (sub_ne_zero.mpr hc)
      rify at hone
      exact_mod_cast hone
    have htriangle : |(c : ℚ) - n| ≤ |c - r| + |n - r| := by
      rw [abs_sub_comm (n : ℚ) r]
      exact abs_sub_le _ _ _
    exact ⟨by linarith, fun htie _ => heven (by linarith)⟩

end RoundsHalfEvenTo

/-- Of two numbers the greater is at least as near exactly from their midpoint on. -/
theorem abs_sub_le_abs_sub_iff_add_le {x y u : ℚ} (h : x < y) : |y - u| ≤ |x - u| ↔ x + y ≤ 2 * u := by
  rw [← sq_le_sq]
  constructor <;> intro <;> nlinarith

/-- Of two numbers the lesser is at least as near exactly up to their midpoint. -/
theorem abs_sub_le_abs_sub_iff_le_add {x y u : ℚ} (h : x < y) : |x - u| ≤ |y - u| ↔ 2 * u ≤ x + y := by
  rw [← sq_le_sq]
  constructor <;> intro <;> nlinarith

theorem even_mul_two_pow (n : Nat) {k : Nat} (hk : 0 < k) : Even (n * 2 ^ k) :=
  (Nat.even_pow.mpr ⟨even_two, hk.ne'⟩).mul_left n

/-! ### The values between which CVTN rounds (R66, R84)

In the binade of the operand the values of the result's format are the multiples of the quantum `2^q`. Below it they lie
closer together, but not above the least number of the binade, which is a multiple itself. -/

namespace Desc

variable {d : Desc}

/-- How many exponents above the least one the quantum of R84 lies, for an operand whose leading bit is at `e`. -/
def quantumSteps (d : Desc) (e : Int) : Nat := (e - (1 - d.bias)).toNat

theorem quantumExponent_eq (d : Desc) (e : Int) :
    quantumExponent d e = d.quantumSteps e + (1 - d.bias - d.mant) := by
  rw [quantumExponent, quantumSteps]
  omega

/-- A quantum above the least one is that of the operand's own leading bit. -/
theorem quantumExponent_of_steps_pos {e : Int} (h : 0 < d.quantumSteps e) : d.mant + quantumExponent d e = e := by
  rw [quantumSteps] at h
  rw [quantumExponent]
  omega

/-- From exponent `j` on the values are multiples of `2^j` units, and below they lie below the first such number. -/
theorem dvd_fieldUnits_or_lt (j e : Nat) {f : Nat} (hf : f < 2 ^ d.mant) :
    2 ^ j ∣ d.fieldUnits e f ∨ 0 < j ∧ d.fieldUnits e f < 2 ^ d.mant * 2 ^ j := by
  cases e with
  | zero =>
    rw [fieldUnits_zero]
    rcases j.eq_zero_or_pos with rfl | hj
    · exact .inl (one_dvd f)
    · exact .inr ⟨hj, hf.trans_le (Nat.le_mul_of_pos_right _ (Nat.two_pow_pos j))⟩
  | succ e =>
    rw [fieldUnits_succ]
    rcases le_or_gt j e with he | he
    · exact .inl (Dvd.dvd.mul_left (pow_dvd_pow 2 he) _)
    · refine .inr ⟨by omega, ?_⟩
      calc (2 ^ d.mant + f) * 2 ^ e < (2 ^ d.mant + 2 ^ d.mant) * 2 ^ e := by gcongr
        _ = 2 ^ d.mant * 2 ^ (e + 1) := by ring
        _ ≤ 2 ^ d.mant * 2 ^ j := by gcongr; exact one_le_two; exact he

/-- The same of the value of a key, for the quantum of an operand in the binade of `e`. -/
theorem keyValue_multiple_or_lt (d : Desc) (e k : Int) :
    (∃ c : Int, d.keyValue k = c * (2 : ℚ) ^ quantumExponent d e) ∨
      0 < d.quantumSteps e ∧ d.keyValue k < (2 : ℚ) ^ e := by
  have hunits : (2 : ℚ) ^ quantumExponent d e = 2 ^ d.quantumSteps e * (2 : ℚ) ^ (1 - d.bias - d.mant : Int) := by
    rw [quantumExponent_eq, zpow_add₀ two_ne_zero, zpow_natCast]
  obtain ⟨c, hc⟩ | ⟨hj, hlt⟩ := d.dvd_fieldUnits_or_lt (d.quantumSteps e) (k.natAbs / 2 ^ d.mant)
    (Nat.mod_lt k.natAbs (Nat.two_pow_pos d.mant))
  · refine .inl ⟨k.sign * c, ?_⟩
    rw [keyValue, magUnits, hc, hunits]
    push_cast
    ring
  · refine .inr ⟨hj, ?_⟩
    have hsign : (k.sign : ℚ) ≤ 1 := by
      rcases Int.sign_trichotomy k with h | h | h <;> norm_num [h]
    rw [← quantumExponent_of_steps_pos hj, zpow_add₀ two_ne_zero, zpow_natCast, hunits, ← mul_assoc, keyValue]
    refine mul_lt_mul_of_pos_right ?_ (by positivity)
    calc (k.sign : ℚ) * d.magUnits k.natAbs ≤ d.magUnits k.natAbs :=
          mul_le_of_le_one_left (Nat.cast_nonneg _) hsign
      _ < 2 ^ d.mant * 2 ^ d.quantumSteps e := by exact_mod_cast hlt

/-- The magnitude of `n` quanta, overflow aside: each exponent takes `2^m` magnitudes (R62, R84). -/
def quantaMagnitude (d : Desc) (e : Int) (n : Nat) : Nat := d.quantumSteps e * 2 ^ d.mant + n

/-- That magnitude has the value of `n` quanta, as `n` is below the next binade, or its least number. -/
theorem keyValue_quantaMagnitude {e : Int} {n : Nat} (hlo : 0 < d.quantumSteps e → 2 ^ d.mant ≤ n)
    (hhi : n ≤ 2 ^ (d.mant + 1)) :
    d.keyValue (d.quantaMagnitude e n) = n * (2 : ℚ) ^ quantumExponent d e := by
  have hunits : d.magUnits (d.quantaMagnitude e n) = n * 2 ^ d.quantumSteps e := by
    rw [Nat.pow_succ] at hhi
    rw [quantaMagnitude]
    generalize d.quantumSteps e = j at hlo
    by_cases hsub : n < 2 ^ d.mant
    · obtain rfl : j = 0 := by omega
      rw [magUnits_of_fields 0 hsub, fieldUnits_zero, pow_zero, mul_one]
    · obtain ⟨f, rfl⟩ := Nat.exists_eq_add_of_le (not_lt.mp hsub)
      by_cases hnormal : f < 2 ^ d.mant
      · rw [← Nat.add_assoc, ← Nat.succ_mul, magUnits_of_fields (j + 1) hnormal, fieldUnits_succ]
      · obtain rfl : f = 2 ^ d.mant := by omega
        rw [show j * 2 ^ d.mant + (2 ^ d.mant + 2 ^ d.mant) = (j + 2) * 2 ^ d.mant + 0 by ring,
          magUnits_of_fields (j + 2) (Nat.two_pow_pos _), fieldUnits_succ]
        ring
  rw [keyValue_natCast, hunits, quantumExponent_eq, zpow_add₀ two_ne_zero, zpow_natCast]
  push_cast
  ring

/-- An even number of quanta has an even magnitude. -/
theorem even_quantaMagnitude (hd : d.Wf) (e : Int) {n : Nat} (hn : Even n) : Even (d.quantaMagnitude e n) := by
  obtain ⟨-, -, hm, -⟩ := hd
  exact (even_mul_two_pow _ hm).add hn

/-- The key of the infinity counts as the number `2^(bias+1)`, from which on R84 overflows. -/
theorem keyValue_inf (hbias : d.emax = 2 * d.bias + 1) : d.keyValue d.inf = (2 : ℚ) ^ (d.bias + 1) := by
  have hunits : d.magUnits d.inf = 2 ^ d.mant * 2 ^ (2 * d.bias) := by
    have hinf : d.inf = d.emax * 2 ^ d.mant + 0 := d.inf_eq
    rw [hinf, magUnits_of_fields _ (Nat.two_pow_pos _), hbias, fieldUnits_succ, Nat.add_zero]
  rw [keyValue_natCast, hunits]
  push_cast
  rw [← pow_add, ← zpow_natCast, ← zpow_natCast, ← zpow_add₀ two_ne_zero]
  congr 1
  push_cast
  ring

theorem even_inf (hd : d.Wf) : Even d.inf := by
  obtain ⟨-, -, hm, -⟩ := hd
  rw [inf_eq]
  exact even_mul_two_pow _ hm

/-! ### The nearest magnitude (R84) -/

/-- `g` is the magnitude that R84 rounds `u` to, among those of the finite numbers and that of the infinity, which
counts as the number `2^(bias+1)`: no key has a nearer value, and `g` is even where another one is equally near. -/
structure Nearest (d : Desc) (u : ℚ) (g : Nat) : Prop where
  le_inf : g ≤ d.inf
  le_dist : ∀ k : Int, k ≤ d.inf → |d.keyValue g - u| ≤ |d.keyValue k - u|
  even_of_tie : ∀ k : Int, k ≤ d.inf → k ≠ g → |d.keyValue g - u| = |d.keyValue k - u| → Even g

section Nearest

variable {u u' : ℚ} {g g' : Nat}

/-- A number is rounded to the infinity from the midpoint on between it and the greatest finite number: it is even, and
the greatest finite number is nearer than the others. -/
theorem nearest_inf_iff (hd : d.Wf) :
    d.Nearest u d.inf ↔ d.keyValue (d.inf - 1) + d.keyValue d.inf ≤ 2 * u := by
  have hval : d.keyValue (d.inf - 1) < d.keyValue d.inf := d.keyValue_strictMono (by omega)
  refine ⟨fun h => (abs_sub_le_abs_sub_iff_add_le hval).mp (h.le_dist _ (by omega)), fun h =>
    ⟨le_rfl, fun k hk => ?_, fun _ _ _ _ => even_inf hd⟩⟩
  rcases hk.eq_or_lt with rfl | hlt
  · exact le_rfl
  · have hle := d.keyValue_strictMono.monotone (show k ≤ d.inf - 1 by omega)
    exact (abs_sub_le_abs_sub_iff_add_le (d.keyValue_strictMono hlt)).mpr (by linarith)

/-- A number at or beyond the infinity's is rounded to it. -/
theorem nearest_inf_of_le (hd : d.Wf) (h : d.keyValue d.inf ≤ u) : d.Nearest u d.inf := by
  have hval : d.keyValue (d.inf - 1) < d.keyValue d.inf := d.keyValue_strictMono (by omega)
  exact (nearest_inf_iff hd).mpr (by linarith)

/-- The value of a magnitude is rounded to that magnitude. -/
theorem nearest_self (h : g ≤ d.inf) : d.Nearest (d.keyValue g) g := by
  refine ⟨h, fun k _ => ?_, fun k _ hne htie => ?_⟩
  · rw [sub_self, abs_zero]
    exact abs_nonneg _
  · rw [sub_self, abs_zero, eq_comm, abs_eq_zero, sub_eq_zero, d.keyValue_strictMono.injective.eq_iff] at htie
    exact absurd htie hne

/-- Rounding is monotonic. Else the two numbers are both halfway between their magnitudes, which are then even, and the
one between them would be nearer. -/
theorem Nearest.mono (h : d.Nearest u g) (h' : d.Nearest u' g') (hle : u ≤ u') : g ≤ g' := by
  by_contra hgt
  rw [not_le] at hgt
  have hinf := h.le_inf
  have hval : d.keyValue g' < d.keyValue g := d.keyValue_strictMono (by exact_mod_cast hgt)
  have hlo := (abs_sub_le_abs_sub_iff_add_le hval).mp (h.le_dist g' (by omega))
  have hhi := (abs_sub_le_abs_sub_iff_le_add hval).mp (h'.le_dist g (by omega))
  obtain rfl : u = u' := by linarith
  have htie : |d.keyValue g - u| = |d.keyValue g' - u| :=
    le_antisymm (h.le_dist g' (by omega)) (h'.le_dist g (by omega))
  have heven := h.even_of_tie g' (by omega) (by omega) htie
  have heven' := h'.even_of_tie g (by omega) (by omega) htie.symm
  have hbetween : g' + 1 < g := by
    rw [Nat.even_iff] at heven heven'
    omega
  have hval' : d.keyValue g' < d.keyValue (g' + 1 : Nat) := d.keyValue_strictMono (by push_cast; omega)
  have hval'' : d.keyValue (g' + 1 : Nat) < d.keyValue g := d.keyValue_strictMono (by exact_mod_cast hbetween)
  have hnear := (abs_sub_le_abs_sub_iff_add_le hval'').mp (h.le_dist (g' + 1 : Nat) (by omega))
  linarith

/-- R84 determines the rounded magnitude. -/
theorem Nearest.unique (h : d.Nearest u g) (h' : d.Nearest u g') : g = g' :=
  le_antisymm (h.mono h' le_rfl) (h'.mono h le_rfl)

/-- The same of a number with its sign: the key with the nearest value is the rounded magnitude's, with that sign. -/
theorem Nearest.signed (h : d.Nearest u g) {kg : Int} {v : ℚ} (hsign : kg = g ∧ v = u ∨ kg = -g ∧ v = -u) {k : Int}
    (hk : |k| ≤ d.inf) : |d.keyValue kg - v| ≤ |d.keyValue k - v| ∧
      (|d.keyValue kg - v| = |d.keyValue k - v| → k ≠ kg → Even g) := by
  obtain ⟨hlo, hhi⟩ := abs_le.mp hk
  obtain ⟨rfl, rfl⟩ | ⟨rfl, rfl⟩ := hsign
  · exact ⟨h.le_dist k hhi, fun htie hne => h.even_of_tie k hhi hne htie⟩
  · have hflip (k : Int) : |d.keyValue k - -u| = |d.keyValue (-k) - u| := by
      rw [keyValue_neg, ← abs_neg, neg_sub, neg_sub_left, neg_sub_left, add_comm]
    rw [hflip, hflip, neg_neg]
    exact ⟨h.le_dist (-k) (by omega), fun htie hne => h.even_of_tie (-k) (by omega) (by omega) htie⟩

/-- Clamping the magnitude with the nearest value at the infinity rounds with overflow. -/
theorem nearest_min_inf (hd : d.Wf) (h : ∀ k : Int, |d.keyValue g - u| ≤ |d.keyValue k - u| ∧
    (k ≠ g → |d.keyValue g - u| = |d.keyValue k - u| → Even g)) : d.Nearest u (min g d.inf) := by
  rcases le_or_gt g d.inf with hg | hg
  · rw [min_eq_left hg]
    exact ⟨hg, fun k _ => (h k).1, fun k _ => (h k).2⟩
  · have hval : d.keyValue d.inf < d.keyValue g := d.keyValue_strictMono (by exact_mod_cast hg)
    rw [min_eq_right hg.le]
    refine nearest_inf_of_le hd ?_
    linarith [(abs_sub_le_abs_sub_iff_add_le hval).mp (h d.inf).1]

section Quanta

variable {e : Int} {n : Nat} (he : (2 : ℚ) ^ e ≤ u) (hn : RoundsHalfEvenTo (u / (2 : ℚ) ^ quantumExponent d e) n)

include he hn

/-- Above the least quantum, the operand and what it is rounded to have at least `2^m` quanta. -/
theorem two_pow_mant_le_of_steps_pos (hj : 0 < d.quantumSteps e) : 2 ^ d.mant ≤ n := by
  refine hn.le_of_le ?_
  rw [le_div_iff₀ (by positivity), Nat.cast_pow, Nat.cast_ofNat, ← zpow_natCast, ← zpow_add₀ two_ne_zero,
    quantumExponent_of_steps_pos hj]
  exact he

variable (hle : n ≤ 2 ^ (d.mant + 1))

include hle

/-- Overflow aside, the rounded number of quanta has the magnitude with the nearest value: a value that is no multiple
of the quantum lies below the binade, whose least number is a multiple, and so is farther. -/
theorem quantaMagnitude_nearest (hd : d.Wf) (k : Int) :
    |d.keyValue (d.quantaMagnitude e n) - u| ≤ |d.keyValue k - u| ∧
      (k ≠ d.quantaMagnitude e n → |d.keyValue (d.quantaMagnitude e n) - u| = |d.keyValue k - u| →
        Even (d.quantaMagnitude e n)) := by
  have hvalue := keyValue_quantaMagnitude (two_pow_mant_le_of_steps_pos he hn) hle
  have hquantum : (0 : ℚ) < 2 ^ quantumExponent d e := by positivity
  have hdist (c : ℚ) : |c * 2 ^ quantumExponent d e - u| =
      |c - u / 2 ^ quantumExponent d e| * 2 ^ quantumExponent d e := by
    rw [← abs_of_pos hquantum, ← abs_mul, abs_of_pos hquantum, sub_mul, div_mul_cancel₀ _ hquantum.ne']
  obtain ⟨c, hc⟩ | ⟨hj, hlt⟩ := d.keyValue_multiple_or_lt e k
  · obtain ⟨hnear, heven⟩ := hn.nearest c
    rw [hvalue, hc, hdist, hdist, mul_le_mul_iff_left₀ hquantum, mul_left_inj' hquantum.ne']
    refine ⟨hnear, fun hne htie => even_quantaMagnitude hd e (heven htie ?_)⟩
    rintro rfl
    exact hne (d.keyValue_strictMono.injective (by rw [hc, hvalue, Int.cast_natCast]))
  · have hleast : ((2 ^ d.mant : Nat) : ℚ) * 2 ^ quantumExponent d e = 2 ^ e := by
      rw [Nat.cast_pow, Nat.cast_ofNat, ← zpow_natCast, ← zpow_add₀ two_ne_zero, quantumExponent_of_steps_pos hj]
    have hnear := mul_le_mul_of_nonneg_right (hn.nearest (2 ^ d.mant : Nat)).1 hquantum.le
    rw [Int.cast_natCast, ← hdist, ← hdist, hleast, ← hvalue] at hnear
    have hfar : |(2 : ℚ) ^ e - u| < |d.keyValue k - u| := by
      rw [abs_sub_comm, abs_of_nonneg (by linarith), abs_sub_comm, abs_of_nonneg (by linarith)]
      linarith
    exact ⟨by linarith, fun _ htie => absurd htie (by linarith)⟩

/-- The magnitude that R84 gives is that of the number of quanta, or that of the infinity from there on. -/
theorem roundedMagnitude_eq_min (hbias : d.emax = 2 * d.bias + 1) :
    roundedMagnitude d (quantumExponent d e) n = min (d.quantaMagnitude e n) d.inf := by
  have hlow := two_pow_mant_le_of_steps_pos he hn
  have hover : (2 : ℚ) ^ (d.bias + 1) ≤ n * 2 ^ quantumExponent d e ↔ d.inf ≤ d.quantaMagnitude e n := by
    rw [← keyValue_inf hbias, ← keyValue_quantaMagnitude hlow hle, d.keyValue_strictMono.le_iff_le, Nat.cast_le]
  by_cases h : (2 : ℚ) ^ (d.bias + 1) ≤ n * 2 ^ quantumExponent d e
  · rw [roundedMagnitude_of_overflow h, min_eq_right (hover.mp h)]
  rw [min_eq_left (not_le.mp (mt hover.mpr h)).le, quantaMagnitude]
  rw [not_le] at h
  by_cases hsub : n < 2 ^ d.mant
  · have hj : d.quantumSteps e = 0 := by omega
    rw [roundedMagnitude_of_lt h hsub, hj, Nat.zero_mul, Nat.zero_add]
  have hfield : quantumExponent d e + d.mant + d.bias = (d.quantumSteps e + 1 : Nat) := by
    rw [quantumExponent_eq]
    push_cast
    ring
  by_cases hcarry : n = 2 ^ (d.mant + 1)
  · have hnext : quantumExponent d e + 1 + d.mant + d.bias = (d.quantumSteps e + 2 : Nat) := by
      push_cast at hfield ⊢
      linarith
    rw [roundedMagnitude_of_carry h hcarry, hnext, Int.toNat_natCast, hcarry]
    ring
  · rw [roundedMagnitude_of_normal h (by omega) (by omega), hfield, Int.toNat_natCast, Nat.add_one_mul, Nat.add_assoc,
      Nat.add_sub_cancel' (by omega)]

theorem nearest_roundedMagnitude (hd : d.Wf) (hbias : d.emax = 2 * d.bias + 1) :
    d.Nearest u (roundedMagnitude d (quantumExponent d e) n) := by
  rw [roundedMagnitude_eq_min he hn hle hbias]
  exact nearest_min_inf hd (quantaMagnitude_nearest he hn hle hd)

end Quanta

end Nearest

/-! ### The operand and the result of CVTN (R84) -/

/-- The magnitude of a finite value is the value of the encoding's magnitude (R64, R66). -/
theorem abs_finiteValue_eq_keyValue_mag (hd : d.Wf) (x : Nat) : |d.finiteValue x| = d.keyValue (d.mag x) := by
  obtain ⟨hmag, -, hmant⟩ := mag_fields hd x
  rw [abs_finiteValue, significand_mul_scale, keyValue_natCast, hmag, magUnits_of_fields _ hmant]

@[simp] theorem keyValue_zero (d : Desc) : d.keyValue 0 = 0 := by simp [keyValue]

/-- Zero is rounded to zero. -/
theorem nearest_zero (d : Desc) : d.Nearest 0 0 := by
  simpa using d.nearest_self (g := 0) (Nat.zero_le _)

/-- The greatest finite number and the infinity's add up to twice the overflow midpoint of R84. -/
theorem keyValue_inf_pred_add (hd : d.Widens) : d.keyValue (d.inf - 1) + d.keyValue d.inf =
    2 * ((2 - (1 / 2) ^ (d.mant + 1)) * 2 ^ d.bias) := by
  have hbias : 0 < d.bias := by
    obtain ⟨-, hexp, -, -⟩ := hd.wf
    have hpow : 2 ^ 2 ≤ 2 ^ d.exp := Nat.pow_le_pow_right two_pos hexp
    have hemax := hd.emax_eq
    rw [emax] at hemax
    omega
  have hsteps : d.quantumSteps d.bias = 2 * d.bias - 1 := by
    rw [quantumSteps]
    omega
  have hquantum : quantumExponent d d.bias = d.bias - d.mant := by
    rw [quantumExponent]
    omega
  have hpos : 0 < 2 ^ d.mant := Nat.two_pow_pos _
  have hdouble : 2 ^ (d.mant + 1) = 2 ^ d.mant * 2 := pow_succ 2 d.mant
  have hmax : ((d.inf : Int) - 1) = d.quantaMagnitude d.bias (2 ^ (d.mant + 1) - 1) := by
    have hinf : d.inf = d.emax * 2 ^ d.mant := d.inf_eq
    obtain ⟨b, hb⟩ := Nat.exists_eq_add_of_lt hbias
    rw [hinf, quantaMagnitude, hsteps, hd.emax_eq, hb, show 2 * (0 + b + 1) + 1 = 2 * b + 3 by ring,
      show 2 * (0 + b + 1) - 1 = 2 * b + 1 by omega, Nat.add_mul, Nat.add_mul]
    omega
  rw [keyValue_inf hd.emax_eq, hmax, keyValue_quantaMagnitude (fun _ => by omega) (Nat.sub_le _ _), hquantum,
    zpow_sub₀ two_ne_zero, zpow_natCast, zpow_natCast, Nat.cast_sub (by omega), hdouble, one_div, inv_pow]
  push_cast
  field_simp
  ring

/-- The infinity of binary64 counts as a number that is not below that of a narrower format. -/
theorem keyValue_inf_le (hd : d.Widens) : d.keyValue d.inf ≤ (Rom.table.row .D).keyValue (Rom.table.row .D).inf := by
  have hbias : d.bias ≤ 1023 := (Nat.le_add_right _ _).trans hd.bias_mant_le
  rw [keyValue_inf hd.emax_eq, keyValue_inf (table_row_emax .D)]
  exact pow_le_pow_right₀ one_le_two (Nat.succ_le_succ hbias)

/-- The magnitude of an infinity (R63, R64). -/
theorem mag_of_isInf (hd : d.Wf) {x : Nat} (h : d.isInf x = true) : d.mag x = d.inf := by
  obtain ⟨-, hmag, -⟩ := class_of_mag hd x
  exact (hmag.mp h).trans d.inf_eq.symm

/-- An infinity of binary64 is rounded to one of a narrower format. -/
theorem nearest_of_isInf (hd : d.Widens) {a : Nat} (h : (Rom.table.row .D).isInf a = true) :
    d.Nearest ((Rom.table.row .D).keyValue ((Rom.table.row .D).mag a)) d.inf := by
  rw [mag_of_isInf (table_row_wf .D) h]
  exact nearest_inf_of_le hd.wf (keyValue_inf_le hd)

end Desc

section Narrow

variable {d : Desc} (hd : d.Widens) {a : Nat}

include hd

/-- CVTN rounds every operand that is not a NaN, an infinity as a number beyond every other, and keeps its sign. -/
theorem narrow_nearest (hnan : (Rom.table.row .D).isNan a = false) : ∃ g,
    (zext64 (narrow (Rom.table.row .D) d a)).toNat = (Rom.table.row .D).sign a * 2 ^ (d.total - 1) + g ∧
      d.Nearest ((Rom.table.row .D).keyValue ((Rom.table.row .D).mag a)) g := by
  have hb := table_row_wf .D
  obtain hfin | hinf | hn := (Rom.table.row .D).isFinite_or_isInf_or_isNan a
  · rw [← Desc.abs_finiteValue_eq_keyValue_mag hb]
    cases hz : (Rom.table.row .D).isZero a with
    | true =>
      obtain ⟨hexp, hmant⟩ := Desc.isZero_iff.mp hz
      have hval : |(Rom.table.row .D).finiteValue a| = 0 := by
        rw [abs_finiteValue, Desc.significand, if_pos hexp, hmant, Nat.cast_zero, zero_mul]
      exact ⟨0, narrow_zero_toNat hd.wf hfin hz, hval ▸ d.nearest_zero⟩
    | false =>
      have hsig := significand_ne_zero hz
      have hround := roundScaled_rounds_operand (Rom.table.row .D) a
        (quantumExponent d (leadingExponent (Rom.table.row .D) a))
      have hle := rounded_le hsig rfl hround
      have hmg := narrowMagnitude_eq (src := Rom.table.row .D) (d := d) (a := a) rfl
      refine ⟨_, narrow_finite_toNat hd.wf hfin hz ?_, ?_⟩
      · rw [hmg]
        exact roundedMagnitude_lt hd.wf hd.emax_eq hle
      · rw [hmg]
        exact Desc.nearest_roundedMagnitude (leadingExponent_bounds hsig).1 hround hle hd.wf hd.emax_eq
  · exact ⟨d.inf, d.inf_eq ▸ narrow_inf_toNat hd.wf hinf, Desc.nearest_of_isInf hd hinf⟩
  · exact absurd hn (Bool.eq_false_iff.mp hnan)

/-- The same, field by field of the result. -/
theorem narrow_fields (hnan : (Rom.table.row .D).isNan a = false) :
    let w := (zext64 (narrow (Rom.table.row .D) d a)).toNat
    d.Encoding w ∧ d.sign w = (Rom.table.row .D).sign a ∧
      d.Nearest ((Rom.table.row .D).keyValue ((Rom.table.row .D).mag a)) (d.mag w) := by
  obtain ⟨g, hw, hnear⟩ := narrow_nearest hd hnan
  have hlt : g < 2 ^ (d.total - 1) := by
    have hinf := Desc.mag_lt_of_fields hd.wf (e := d.emax) (f := 0) (Nat.sub_one_lt (Nat.two_pow_pos _).ne')
      (Nat.two_pow_pos _)
    exact lt_of_le_of_lt (hnear.le_inf.trans_eq d.inf_eq) hinf
  obtain ⟨henc, hsign, hmag⟩ := Desc.sign_mag_unique hd.wf hw (Desc.sign_lt_two _ a) hlt
  exact ⟨henc, hsign, hmag ▸ hnear⟩

end Narrow

namespace Desc

/-- A rounded magnitude is the infinity's exactly from the overflow midpoint of R84 on. -/
theorem Nearest.eq_inf_iff {d : Desc} (hd : d.Widens) {u : ℚ} {g : Nat} (h : d.Nearest u g) :
    g = d.inf ↔ (2 - (1 / 2) ^ (d.mant + 1)) * 2 ^ d.bias ≤ u := by
  have hiff := nearest_inf_iff hd.wf (u := u)
  rw [keyValue_inf_pred_add hd, mul_le_mul_iff_right₀ two_pos] at hiff
  rw [← hiff]
  exact ⟨fun hg => hg ▸ h, fun hinf => h.unique hinf⟩

/-- Encodings of the same sign have keys on the same side of 0 (R64). -/
theorem key_cases_of_sign_eq {d d' : Desc} {x y : Nat} (h : d.sign x = d'.sign y) :
    d.key x = d.mag x ∧ d'.key y = d'.mag y ∨ d.key x = -(d.mag x : Int) ∧ d'.key y = -(d'.mag y : Int) := by
  have hx := d.key_cases x
  have hy := d'.key_cases y
  omega

/-- An encoding is even if its magnitude is. -/
theorem even_of_even_mag {d : Desc} (hd : d.Wf) {x : Nat} (hx : d.Encoding x) (h : Even (d.mag x)) : Even x := by
  obtain ⟨hsplit, -, -⟩ := sign_mag hd hx
  obtain ⟨ht, hexp, -, -⟩ := hd
  rw [hsplit]
  exact (even_mul_two_pow _ (by omega)).add h

end Desc

/-- Settles O21 (R84): the magnitude of the result is the nearest one (`narrow_fields`), the infinity's from the
midpoint on (`Desc.Nearest.eq_inf_iff`), and of the keys on either side of 0 the one with the operand's sign is nearest
(`Desc.Nearest.signed`). -/
theorem cvtnRoundsToNearest : Obligations.CvtnRoundsToNearest := by
  intro s p hrom hp d b a v midpoint hfin
  have hd : d.Widens := table_row_widens hp
  have hb : b.Wf := table_row_wf .D
  have hexec : exec (.cvtn p) s = .next (s.push ⟨0x10, zext64 (narrow b d a), 0, 0, 0, 0⟩) := exec_cvtn hrom hp
  obtain ⟨henc, hsign, hnear⟩ := narrow_fields hd
    (Bool.eq_false_iff.mpr (Desc.not_isNan_not_isInf_of_isFinite hfin).1)
  generalize zext64 (narrow b d a) = w at henc hsign hnear hexec
  obtain ⟨-, hisInf, hisFinite⟩ := Desc.class_of_mag hd.wf w.toNat
  rw [← Desc.inf_eq] at hisInf hisFinite
  have hover : d.mag w.toNat = d.inf ↔ midpoint ≤ |v| := by
    rw [Desc.abs_finiteValue_eq_keyValue_mag hb]
    exact hnear.eq_inf_iff hd
  refine ⟨w, hexec, henc, hsign, fun hlt => ⟨hisFinite.mpr ?_, fun y hy hfy => ?_⟩,
    fun hge => hisInf.mpr (hover.mpr hge)⟩
  · exact lt_of_le_of_ne hnear.le_inf fun h => absurd (hover.mp h) (not_le.mpr hlt)
  have hv : v = b.keyValue (b.key a) := Desc.finiteValue_eq_keyValue hb s.req.a.isLt
  have hside : d.key w.toNat = d.mag w.toNat ∧ v = b.keyValue (b.mag a) ∨
      d.key w.toNat = -(d.mag w.toNat : Int) ∧ v = -b.keyValue (b.mag a) := by
    rw [hv, ← Desc.keyValue_neg]
    exact (Desc.key_cases_of_sign_eq hsign).imp (And.imp_right (congrArg _)) (And.imp_right (congrArg _))
  have hky := (Desc.isNan_eq_false_iff_abs_key hd.wf).mp
    (Bool.eq_false_iff.mpr (Desc.not_isNan_not_isInf_of_isFinite hfy).1)
  obtain ⟨hdist, htie⟩ := hnear.signed hside hky
  rw [Desc.finiteValue_eq_keyValue hd.wf henc, Desc.finiteValue_eq_keyValue hd.wf hy]
  refine ⟨hdist, fun heq hne => Nat.even_iff.mp (Desc.even_of_even_mag hd.wf henc (htie heq fun h => hne ?_))⟩
  rw [h]

/-! ### The laws of the codec (R87) -/

/-- A command whose result is a word returns it as RES. -/
theorem resultOf_of_plain {i : Instr} {a b c w : Word}
    (h : commandResult i Rom.table ⟨encode i, a, b, c⟩ = .ok (.success w)) : resultOf i a b c = some w :=
  resultOf_of_success (f := {}) (Nat.zero_lt_succ 15) h

/-- Below p = D, RES of CVTN is the narrowed operand (R84). -/
theorem resultOf_cvtn {p : Prec} (hp : p ≠ .D) (a : Word) :
    resultOf (.cvtn p) a 0 0 = some (zext64 (narrow (Rom.table.row .D) (Rom.table.row p) a.toNat)) := by
  refine resultOf_of_plain ?_
  cases p with
  | H | S => rfl
  | D => exact absurd rfl hp

theorem resultOf_cvtn_D (a : Word) : resultOf (.cvtn .D) a 0 0 = some a :=
  resultOf_of_plain rfl

/-- Rounding keeps the order of magnitudes, and so that of keys: 0 stays 0, and each sign keeps its side. -/
theorem narrow_key_mono {d : Desc} (hd : d.Widens) {a b : Nat} (ha : (Rom.table.row .D).isNan a = false)
    (hb : (Rom.table.row .D).isNan b = false) (hle : (Rom.table.row .D).key a ≤ (Rom.table.row .D).key b) :
    d.key (zext64 (narrow (Rom.table.row .D) d a)).toNat ≤ d.key (zext64 (narrow (Rom.table.row .D) d b)).toNat := by
  obtain ⟨-, hsa, hna⟩ := narrow_fields hd ha
  obtain ⟨-, hsb, hnb⟩ := narrow_fields hd hb
  have hmono : ∀ {x y : Nat}, x ≤ y → (Rom.table.row .D).keyValue x ≤ (Rom.table.row .D).keyValue y := fun h =>
    (Rom.table.row .D).keyValue_strictMono.monotone (by exact_mod_cast h)
  have hup := fun h => hna.mono hnb (hmono h)
  have hdown := fun h => hnb.mono hna (hmono h)
  have hzero : (Rom.table.row .D).mag a = 0 → d.mag (zext64 (narrow (Rom.table.row .D) d a)).toNat = 0 := fun h => by
    rw [h, Nat.cast_zero, Desc.keyValue_zero] at hna
    exact hna.unique d.nearest_zero
  have hka := Desc.key_cases (Rom.table.row .D) a
  have hkb := Desc.key_cases (Rom.table.row .D) b
  rw [Desc.key, Desc.key, hsa, hsb]
  split <;> split <;> omega

/-- Settles O26 (R87, law 5): CVTN.d changes nothing, and the narrower formats round (`narrow_key_mono`). -/
theorem narrowingIsMonotonic : Obligations.NarrowingIsMonotonic := by
  intro p a b ha hb hle
  by_cases hp : p = .D
  · subst hp
    exact ⟨a, b, resultOf_cvtn_D a, resultOf_cvtn_D b, hle⟩
  · exact ⟨_, _, resultOf_cvtn hp a, resultOf_cvtn hp b, narrow_key_mono (table_row_widens hp) ha hb hle⟩

section Undo

variable {d : Desc} {x : Nat}

/-- The quiet bit changes an encoding in its mantissa field only (R65). -/
theorem Desc.quiet_eq_add (hd : d.Wf) (x : Nat) :
    d.quiet x = x / 2 ^ d.mant * 2 ^ d.mant + d.quiet (d.rmant x) := by
  obtain ⟨-, -, hm, -⟩ := id hd
  have hlt : 2 ^ (d.mant - 1) < 2 ^ d.mant := Nat.pow_lt_pow_right one_lt_two (Nat.sub_one_lt_of_lt hm)
  calc d.quiet x = d.quiet x / 2 ^ d.mant * 2 ^ d.mant + d.quiet x % 2 ^ d.mant := (Nat.div_add_mod' _ _).symm
    _ = x / 2 ^ d.mant * 2 ^ d.mant + d.quiet (d.rmant x) := by
      rw [quiet, quiet, Nat.or_div_two_pow, Nat.or_mod_two_pow, Nat.div_eq_of_lt hlt, Nat.mod_eq_of_lt hlt, Nat.or_zero,
        rmant_eq_mod hd]

variable (hd : d.Widens)

include hd

/-- The top payload bits of a widened NaN are its mantissa, under the quiet bit (R85, R86). -/
theorem narrowPayload_widen (h : d.isNan x = true) :
    narrowPayload d (zext64 (widen d Rom.table.d x)).toNat = d.quiet (d.rmant x) := by
  have hm := hd.mant_le
  obtain ⟨-, -, hpos, -⟩ := hd.wf
  have hquiet : 2 ^ 51 = 2 ^ (d.mant - 1) * 2 ^ (52 - d.mant) := by
    rw [← Nat.pow_add]
    congr 1
    omega
  rw [narrowPayload, (widen_nan_hasFields hd h).rmant, Desc.quiet, Nat.or_div_two_pow, hquiet,
    Nat.mul_div_cancel _ (Nat.two_pow_pos _), Nat.mul_div_cancel _ (Nat.two_pow_pos _), Nat.or_assoc, Nat.or_self]

theorem widen_isNan (h : d.isNan x = true) :
    (Rom.table.row .D).isNan (zext64 (widen d Rom.table.d x)).toNat = true := by
  have hf := widen_nan_hasFields hd h
  refine Desc.isNan_iff.mpr ⟨hf.rexp, ?_⟩
  rw [hf.rmant]
  exact Nat.ne_of_gt (lt_of_lt_of_le (Nat.two_pow_pos 51) Nat.right_le_or)

/-- A widened encoding that is not a NaN is none, keeps its sign, and is rounded to the magnitude that was widened. -/
theorem widen_nearest (h : d.isNan x = false) :
    (Rom.table.row .D).isNan (zext64 (widen d Rom.table.d x)).toNat = false ∧
    (Rom.table.row .D).sign (zext64 (widen d Rom.table.d x)).toNat = d.sign x ∧
    d.Nearest ((Rom.table.row .D).keyValue ((Rom.table.row .D).mag (zext64 (widen d Rom.table.d x)).toNat))
      (d.mag x) := by
  obtain hfin | hinf | hnan := d.isFinite_or_isInf_or_isNan x
  · obtain ⟨hsign, hfin', hval⟩ := widen_finite hd hfin
    obtain ⟨-, -, hmag⟩ := Desc.class_of_mag hd.wf x
    rw [← Desc.inf_eq] at hmag
    refine ⟨Bool.eq_false_iff.mpr (Desc.not_isNan_not_isInf_of_isFinite hfin').1, hsign, ?_⟩
    rw [← Desc.abs_finiteValue_eq_keyValue_mag (table_row_wf .D), hval, Desc.abs_finiteValue_eq_keyValue_mag hd.wf]
    exact Desc.nearest_self (hmag.mp hfin).le
  · have hf := widen_inf_hasFields hinf
    refine ⟨Bool.eq_false_iff.mpr fun hn => (Desc.isNan_iff.mp hn).2 hf.rmant, hf.sign, ?_⟩
    rw [Desc.mag_of_isInf hd.wf hinf]
    exact Desc.nearest_of_isInf hd (Desc.isInf_iff.mpr ⟨hf.rexp, hf.rmant⟩)
  · exact absurd hnan (Bool.eq_false_iff.mp h)

variable (hx : d.Encoding x)

include hx

/-- Narrowing a widened NaN gives it back, quiet. -/
theorem narrow_widen_nan (h : d.isNan x = true) :
    (zext64 (narrow (Rom.table.row .D) d (zext64 (widen d Rom.table.d x)).toNat)).toNat = d.quiet x := by
  have hword := narrow_nan_toNat hd.wf hd.mant_le (widen_isNan hd h)
  rw [(widen_nan_hasFields hd h).sign, narrowPayload_widen hd h] at hword
  obtain ⟨hsplit, -, -⟩ := Desc.sign_mag hd.wf hx
  obtain ⟨hmag, -, -⟩ := Desc.mag_fields hd.wf x
  obtain ⟨hexp, -⟩ := Desc.isNan_iff.mp h
  have htop : x / 2 ^ d.mant * 2 ^ d.mant + d.rmant x = x := by
    rw [Desc.rmant_eq_mod hd.wf]
    exact Nat.div_add_mod' _ _
  rw [hexp, Desc.emax] at hmag
  refine hword.trans ?_
  rw [Desc.quiet_eq_add hd.wf x]
  omega

/-- Narrowing undoes widening on an encoding that is not a NaN: its sign and its magnitude come back. -/
theorem narrow_widen (h : d.isNan x = false) :
    (zext64 (narrow (Rom.table.row .D) d (zext64 (widen d Rom.table.d x)).toNat)).toNat = x := by
  obtain ⟨hnan, hsign, hnear⟩ := widen_nearest hd h
  obtain ⟨henc, hsign', hnear'⟩ := narrow_fields hd hnan
  obtain ⟨hsplit, -, -⟩ := Desc.sign_mag hd.wf hx
  obtain ⟨hsplit', -, -⟩ := Desc.sign_mag hd.wf henc
  rw [hsplit', hsign', hsign, hnear'.unique hnear, ← hsplit]

end Undo

/-- A pattern's signed view lies in the signed range of its width, and its low bits are the pattern. -/
theorem sext64_mem_and_low_bits {t v : Nat} (hpos : 0 < t) (hle : t ≤ 64) (hv : v < 2 ^ t) :
    (-2 ^ (t - 1) ≤ (sext64 t v).toInt ∧ (sext64 t v).toInt < 2 ^ (t - 1)) ∧ (sext64 t v).toNat % 2 ^ t = v := by
  have hint := sext64_toInt hpos hle (v := v)
  have hlow := toNat_mod_two_pow_eq_toInt_emod hle (sext64 t v)
  have hdouble : (2 : Int) ^ t = 2 ^ (t - 1) * 2 := by rw [← pow_succ, Nat.sub_add_cancel hpos]
  have hv' : (v : Int) < 2 ^ t := by exact_mod_cast hv
  have hself := Int.emod_eq_of_lt (Int.natCast_nonneg v) hv'
  rw [Nat.mod_eq_of_lt hv] at hint
  rw [hint] at hlow ⊢
  by_cases h : v < 2 ^ (t - 1)
  · rw [if_pos h] at hlow ⊢
    zify at h
    exact ⟨by omega, Nat.cast_inj.mp (hlow.trans hself)⟩
  · rw [if_neg h, Int.sub_emod_right] at hlow
    rw [if_neg h]
    zify at h
    exact ⟨by omega, Nat.cast_inj.mp (hlow.trans hself)⟩

section Patterns

variable {p : Prec} {x : Word} (hx : (Rom.table.row p).Encoding x.toNat)

include hx

theorem resultOf_cvtw (hp : p ≠ .D) :
    resultOf (.cvtw p) x 0 0 = some (zext64 (widen (Rom.table.row p) Rom.table.d x.toNat)) :=
  resultOf_of_plain (cvtw_of_encoding hp hx)

theorem resultOf_ftob : resultOf (.ftob p) x 0 0 = some x :=
  resultOf_of_plain (ftob_of_lt (table_row_total_pos p) hx)

theorem resultOf_btof : resultOf (.btof p) x 0 0 = some x :=
  resultOf_of_plain (i := .btof p) (ftob_of_lt (table_row_total_pos p) hx)

theorem resultOf_ftobs : resultOf (.ftobs p) x 0 0 = some (sext64 (Rom.table.row p).total x.toNat) :=
  resultOf_of_plain (ftobs_of_lt (table_row_total_pos p) hx)

/-- BTOFS undoes FTOBS: the signed view lies in the signed range, and its low bits are the pattern (R81, R83). -/
theorem resultOf_btofs_sext64 : resultOf (.btofs p) (sext64 (Rom.table.row p).total x.toNat) 0 0 = some x := by
  have hpos := table_row_total_pos p
  have hle := table_row_total_le p
  obtain ⟨hmem, hlow⟩ := sext64_mem_and_low_bits hpos hle hx
  have hbtofs := btofs_of_mem hpos hle hmem
  rw [hlow, zext64_toNat_self] at hbtofs
  exact resultOf_of_plain hbtofs

end Patterns

/-- Settles O25 (R87, law 4), by whether the operand is a NaN (`narrow_widen_nan`, `narrow_widen`). -/
theorem narrowingUndoesWidening : Obligations.NarrowingUndoesWidening := by
  intro p x hp hx d
  have hd : d.Widens := table_row_widens hp
  rw [resultOf_cvtw hx hp, Option.bind_some, resultOf_cvtn hp, Option.some.injEq]
  split
  next h => rw [← narrow_widen_nan hd hx h, zext64_toNat_self]
  next h => exact BitVec.eq_of_toNat_eq (narrow_widen hd hx (Bool.eq_false_iff.mpr h))

/-- Settles O24 (R87, laws 1 to 3): FTOB and BTOF return their operand, BTOFS undoes the signed view
(`resultOf_btofs_sext64`), and at p = D the conversions return their operand. -/
theorem codecRoundTrips : Obligations.CodecRoundTrips := by
  refine ⟨fun p x hx => ⟨?_, ?_, ?_⟩, fun x => ⟨resultOf_cvtn_D x, resultOf_of_plain (cvtw_D x)⟩⟩
  · rw [resultOf_ftob hx, Option.bind_some, resultOf_btof hx]
  · rw [resultOf_btof hx, Option.bind_some, resultOf_ftob hx]
  · rw [resultOf_ftobs hx, Option.bind_some, resultOf_btofs_sext64 hx]

end Sys2Proof.Machine
end

section
/-! Proofs about what commands read and leave, about the step and the channels, and about the invariant (10_state.md,
70_reset_and_hazards.md). -/

namespace Sys2Proof.Machine

/-! ### What a command reads and leaves (R12) -/

/-- Settles O42: a command answers (`exec_answers`), and an answer only appends (`answer_pushes`), which leaves every
field but Q as it is. -/
theorem commandsOnlyAppend : Obligations.CommandsOnlyAppend := by
  intro i s
  refine ⟨_, (exec_answers i s).trans (answer_pushes s _), ⟨_, State.push_q s _⟩, ?_⟩
  simp only [State.push_rom, State.push_inReset, State.push_reqValid, State.push_req, State.push_rspReady,
    State.push_choice, State.push_held, State.push_offered, State.push_script, State.push_edge, and_self]

/-- Requests of one command with the same result have the same response. -/
theorem execResponse_congr {i : Instr} {rom : Rom} {a b c a' b' c' : Word}
    (h : commandResult i rom ⟨encode i, a, b, c⟩ = commandResult i rom ⟨encode i, a', b', c'⟩) :
    execResponse rom ⟨encode i, a, b, c⟩ = execResponse rom ⟨encode i, a', b', c'⟩ := by
  rw [execResponse_encode, execResponse_encode, h]

/-- Settles O41 (R12): the result of each command of a list names only the words that the list's commands use. -/
theorem unusedOperandsAreIgnored : Obligations.UnusedOperandsAreIgnored := by
  intro rom p a b c a' b' c'
  refine ⟨execResponse_congr rfl, fun i hi => execResponse_congr ?_, fun i hi => execResponse_congr ?_⟩
  · fin_cases hi <;> rfl
  · fin_cases hi <;> rfl

/-! ### The step (R173, R177) -/

/-- A step at which a request transfers serves the response side, appends the answer, and ends the edge. -/
theorem step_of_reqTransfers {s : State} (hduty : s.breaksDuty = false) (ht : s.reqTransfers = true) :
    step s = .next ((s.serve.push (answerTo s.rom s.req)).endEdge true) := by
  obtain ⟨u, hu⟩ := step_goes_on hduty
  obtain ⟨-, ⟨hr, -⟩ | ⟨-, -, rfl⟩ | ⟨-, hf, -⟩⟩ := step_cases hu
  · exact absurd ((transfers_inReset hr).1.symm.trans ht) Bool.false_ne_true
  · exact hu
  · exact absurd (hf.symm.trans ht) Bool.false_ne_true

/-- Settles O43 (R173): the answer to a request whose word decodes is what its command appends (`exec_answers`). -/
theorem stepRunsTheDecodedCommand : Obligations.StepRunsTheDecodedCommand := by
  intro s i hduty ht hi
  have hexec : exec i s.serve = .next (s.serve.push (answerTo s.rom s.req)) := by
    rw [exec_answers, answer_pushes, answerTo, requestResult, hi, State.serve_rom, State.serve_req]
  rw [hexec]
  exact step_of_reqTransfers hduty ht

/-- Settles O44 (R53, R173): the answer to a word that names no command is its error. -/
theorem stepAnswersRejectedWords : Obligations.StepAnswersRejectedWords := by
  intro s r hduty ht hr
  rw [step_of_reqTransfers hduty ht, answerTo, requestResult, hr, responseOf_error]

/-- The end of an edge with a script brings its next inputs to the ports (log 5). -/
theorem endEdge_of_script {s : State} {d : Drive} {rest : List Drive} (h : s.script = d :: rest) (accepted : Bool) :
    s.endEdge accepted =
      ((s.setHeld (if s.reqValid && !accepted then some s.req else none)).drive d).nextEdge rest := by
  simp only [State.endEdge, h]

/-- Settles O45 (log 5): each of the three edges of `step_cases` keeps the script and ends with `endEdge`. -/
theorem edgesFollowTheScript : Obligations.EdgesFollowTheScript := by
  intro s u d rest hscript h
  have hend : ∃ t accepted, u = State.endEdge t accepted ∧ t.script = d :: rest ∧ t.edge = s.edge ∧ t.rom = s.rom := by
    obtain ⟨-, ⟨-, rfl⟩ | ⟨-, -, rfl⟩ | ⟨-, -, rfl⟩⟩ := step_cases h <;>
      exact ⟨_, _, rfl, hscript, rfl, rfl⟩
  obtain ⟨t, accepted, rfl, ht, hedge, hrom⟩ := hend
  rw [endEdge_of_script ht]
  simp [hedge, hrom]

/-- The duty of R177 is broken exactly if a request that is owed is not offered, or another one is. -/
theorem breaksDuty_iff (s : State) :
    s.breaksDuty = true ↔ ∃ q, s.held = some q ∧ (s.reqValid = false ∨ s.req ≠ q) := by
  unfold State.breaksDuty
  cases s.held with
  | none => simp
  | some q => cases s.reqValid <;> simp

/-- A step refuses a broken duty, and nothing else. -/
theorem step_of_breaksDuty {s : State} (h : s.breaksDuty = true) : step s = .refused .requestChanged := if_pos h

theorem step_held {s u : State} (h : step s = .next u) :
    u.held = if s.reqValid && !s.reqTransfers then some s.req else none := by
  obtain ⟨-, ⟨hr, rfl⟩ | ⟨-, ht, rfl⟩ | ⟨-, ht, rfl⟩⟩ := step_cases h
  · simp [(transfers_inReset hr).1]
  · simp [ht]
  · simp [ht]

/-- Settles O52 (R177, logs 6 and 10): a step refuses a broken duty (`step_of_breaksDuty`), goes on otherwise
(`step_goes_on`), and then owes what was offered and did not transfer (`step_held`). -/
theorem onlyABrokenDutyIsRefused : Obligations.OnlyABrokenDutyIsRefused := by
  intro s
  refine ⟨fun f => ?_, fun r => ?_, fun u => step_held⟩
  · cases hduty : s.breaksDuty with
    | true => simp [step_of_breaksDuty hduty]
    | false =>
      obtain ⟨u, hu⟩ := step_goes_on hduty
      simp [hu]
  · rw [← breaksDuty_iff]
    cases hduty : s.breaksDuty with
    | true => simp [step_of_breaksDuty hduty, eq_comm]
    | false =>
      obtain ⟨u, hu⟩ := step_goes_on hduty
      simp [hu]

/-- Settles O46 (log 9): the placed word is offered, no request is owed, and Q has room. -/
theorem placedWordIsAcceptedNext : Obligations.PlacedWordIsAcceptedNext := by
  intro s w hw f
  have hroom : f.hasRoom = true := by
    rw [hasRoom_iff]
    change (if s.hasRoom then s.q else s.q.take Config.qDepthLess1).length < Config.qDepth
    split
    next h => exact (hasRoom_iff s).mp h
    next h =>
      rw [List.length_take, Config.qDepth]
      omega
  have hready : f.reqReady = true := by
    rw [State.reqReady, hroom]
    rfl
  have ht : f.reqTransfers = true := hready
  refine ⟨rfl, ?_, rfl⟩
  rw [State.accepted, if_pos ht]
  change [(⟨BitVec.ofNat 32 (w % 2 ^ 32), s.req.a, s.req.b, s.req.c⟩ : Request)] = _
  rw [Nat.mod_eq_of_lt hw]

/-! ### The queue over an edge (R173, R175) -/

section Queue

variable {s u : State}

/-- `rsp_valid` is raised outside reset, for a head whose LATENCY is over, if it stands from the edge before or is not
put off. -/
theorem rspValid_iff (s : State) : s.rspValid = true ↔
    s.inReset = false ∧ ∃ e rest, s.q = e :: rest ∧ e.wait = 0 ∧ (s.offered = true ∨ s.choice.defer = false) := by
  unfold State.rspValid
  cases s.q <;> simp

/-- Outside reset, what stays in Q waits one edge less, and an accepted request's answer comes behind it. -/
theorem step_queue (hr : s.inReset = false) (h : step s = .next u) :
    u.q = (if s.rspTransfers then s.q.tail else s.q).map Entry.age ++
      (if s.reqTransfers then [⟨answerTo s.rom s.req, s.choice.latencyLess1⟩] else []) := by
  obtain ⟨-, ⟨hr', -⟩ | ⟨-, ht, rfl⟩ | ⟨-, ht, rfl⟩⟩ := step_cases h
  · exact absurd (hr.symm.trans hr') Bool.false_ne_true
  · simp [ht, answerTo]
  · simp [ht]

/-- An offer that was not taken is remembered. -/
theorem step_offered (h : step s = .next u) : u.offered = (s.rspValid && !s.rspReady) := by
  obtain ⟨-, ⟨hr, rfl⟩ | ⟨-, -, rfl⟩ | ⟨-, -, rfl⟩⟩ := step_cases h
  · simp [(outputs_inReset hr).2]
  · simp
  · simp

/-- While `rsp_valid` is 1 the ports show the head (R174). -/
theorem rspPorts_of_head {e : Entry} {rest : List Entry} (hv : s.rspValid = true) (hq : s.q = e :: rest) :
    s.rspPorts = e.rsp := by
  simp [State.rspPorts, hv, hq]

/-- An offer that was not taken is still the head of Q after the edge, with its words, and may be offered at once. -/
theorem step_keeps_offer (hv : s.rspValid = true) (hn : s.rspReady = false) (h : step s = .next u) :
    ∃ e rest, u.q = e :: rest ∧ e.wait = 0 ∧ e.rsp = s.rspPorts := by
  obtain ⟨hr, e, rest, hq, hwait, -⟩ := (rspValid_iff s).mp hv
  have ht : s.rspTransfers = false := by rw [State.rspTransfers, hn, Bool.and_false]
  have hqueue := step_queue hr h
  rw [ht, hq, if_neg Bool.false_ne_true, List.map_cons, List.cons_append] at hqueue
  exact ⟨e.age, _, hqueue, by rw [Entry.age, hwait], (rspPorts_of_head hv hq).symm⟩

/-- It is offered then, whatever the requester drives, unless that is reset (R175). -/
theorem rspValid_stands (hv : s.rspValid = true) (hn : s.rspReady = false) (h : step s = .next u) {d : Drive}
    (hd : d.rst = false) : (u.drive d).rspValid = true := by
  obtain ⟨e, rest, hq, hwait, -⟩ := step_keeps_offer hv hn h
  have hoffered := step_offered h
  rw [hv, hn] at hoffered
  exact (rspValid_iff _).mpr ⟨hd, e, rest, hq, hwait, .inl hoffered⟩

end Queue

/-- Settles O50 (R175): the bounds of `req_ready` (`hasRoom_iff`) and of `rsp_valid` (`rspValid_iff`), the choice that
gives each value within them, and the standing offer (`rspValid_stands`). -/
theorem channelSignalsKeepTheirRules : Obligations.ChannelSignalsKeepTheirRules := by
  intro s
  refine ⟨fun hfull => ?full, fun hr => (outputs_inReset hr).1, fun hr hroom b => ?ready, rspValid_of_q_nil,
    fun hr => (outputs_inReset hr).2, fun hr ho ⟨e, rest, hq, hwait⟩ b => ?valid, fun u d hv hn h hd hr => ?stands⟩
  case full =>
    have hroom : s.hasRoom = false := Bool.eq_false_iff.mpr fun h => absurd ((hasRoom_iff s).mp h) (by omega)
    rw [State.reqReady, hroom, Bool.and_false, Bool.false_and]
  case ready =>
    refine ⟨⟨!b, false, 0⟩, ?_⟩
    have hroom' : { s with choice := ⟨!b, false, 0⟩ }.hasRoom = true := (hasRoom_iff _).mpr hroom
    rw [State.reqReady, hroom']
    simp [hr]
  case valid =>
    refine ⟨⟨false, !b, 0⟩, ?_⟩
    rw [Bool.eq_iff_iff, rspValid_iff]
    simp [hr, ho, hq, hwait]
  case stands =>
    obtain ⟨e, rest, hq, -, hports⟩ := step_keeps_offer hv hn h
    have hv' := rspValid_stands hv hn h hd
    exact ⟨hv', (rspPorts_of_head hv' hq).trans hports⟩

/-- Settles O51 (R175): an offered head has nothing left to wait (`rspValid_iff`), and over an edge every wait falls by
one (`step_queue`). -/
theorem latencyKeepsResponsesBack : Obligations.LatencyKeepsResponsesBack := by
  intro s u hr h
  refine ⟨fun hv => ?_, ?_⟩
  · obtain ⟨-, e, rest, hq, hwait, -⟩ := (rspValid_iff s).mp hv
    exact ⟨e, rest, hq, hwait⟩
  · rw [step_queue hr h, List.map_append, List.map_map, apply_ite (List.map Entry.wait)]
    rfl

/-! ### The invariant (R10, R175) -/

/-- Settles O55 (R19): after reset the ROM is the table, and Q is empty, with nothing offered. -/
theorem resetMeetsTheInvariant : Obligations.ResetMeetsTheInvariant :=
  ⟨rfl, Nat.zero_le _, fun _ h => absurd h List.not_mem_nil, fun h => nomatch h⟩

section Invariant

variable {s u : State}

/-- A request transfers only with room in Q (R175). -/
theorem hasRoom_of_reqTransfers (h : s.reqTransfers = true) : s.q.length < Config.qDepth := by
  simp only [State.reqTransfers, State.reqReady, Bool.and_eq_true] at h
  obtain ⟨-, ⟨-, hroom⟩, -⟩ := h
  exact (hasRoom_iff s).mp hroom

/-- Q stays within QDEPTH: an entry is added only where there is room. -/
theorem step_keeps_length (hq : s.q.length ≤ Config.qDepth) (h : step s = .next u) :
    u.q.length ≤ Config.qDepth := by
  cases hr : s.inReset with
  | true =>
    rw [(step_inReset hr h).1]
    exact Nat.zero_le _
  | false =>
    have hstay : (if s.rspTransfers then s.q.tail else s.q).length ≤ s.q.length := by
      split
      · exact List.length_tail ▸ Nat.sub_le _ _
      · exact le_rfl
    rw [step_queue hr h, List.length_append, List.length_map]
    by_cases ht : s.reqTransfers = true
    · have hroom := hasRoom_of_reqTransfers ht
      rw [if_pos ht, List.length_singleton]
      omega
    · rw [if_neg ht, List.length_nil]
      omega

/-- Every entry is a response of the spec's shape: the new one is an answer, and waiting changes no words. -/
theorem step_keeps_legal (hq : ∀ e ∈ s.q, e.rsp.legal = true) (h : step s = .next u) :
    ∀ e ∈ u.q, e.rsp.legal = true := by
  cases hr : s.inReset with
  | true => simp [(step_inReset hr h).1]
  | false =>
    have hanswer : (answerTo s.rom s.req).legal = true := (requestResult_writesOnly s.rom s.req).1
    intro e he
    rw [step_queue hr h, List.mem_append, List.mem_map] at he
    obtain ⟨e, he, rfl⟩ | he := he
    · refine hq e ?_
      split at he
      · exact List.mem_of_mem_tail he
      · exact he
    · split at he
      · exact List.mem_singleton.mp he ▸ hanswer
      · exact absurd he List.not_mem_nil

end Invariant

/-- Settles O56 (R10, R175): each part of the invariant is kept by a step (`step_keeps_rom`, `step_keeps_length`,
`step_keeps_legal`, `step_keeps_offer`), and none of them reads what is driven next. -/
theorem edgesKeepTheInvariant : Obligations.EdgesKeepTheInvariant := by
  rintro s _ ⟨hrom, hlen, hlegal, -⟩ ⟨u, d, hstep, rfl⟩
  have hlen' := step_keeps_length hlen hstep
  have hlegal' := step_keeps_legal hlegal hstep
  refine ⟨(step_keeps_rom hstep).trans hrom, hlen', hlegal', fun ho => ?_⟩
  have hstands : (s.rspValid && !s.rspReady) = true := (step_offered hstep).symm.trans ho
  rw [Bool.and_eq_true, Bool.not_eq_true'] at hstands
  obtain ⟨e, rest, hq, hwait, -⟩ := step_keeps_offer hstands.1 hstands.2 hstep
  exact ⟨e, rest, hq, hwait⟩

end Sys2Proof.Machine
end

section
/-! Proofs about the progress of requests and responses in a fair run (70_reset_and_hazards.md section 4). -/

namespace Sys2Proof.Machine

/-- What the first edges deliver grows with their number. -/
theorem deliveredFrom_length_mono (r : Nat → State) (n : Nat) : Monotone fun k => (deliveredFrom r n k).length :=
  monotone_nat_of_le_succ fun k => by
    rw [deliveredFrom, List.length_append]
    exact Nat.le_add_right _ _

/-- A transfer delivers one response. -/
theorem delivered_length_of_rspTransfers {s : State} (h : s.rspTransfers = true) : s.delivered.length = 1 := by
  obtain ⟨hv, -⟩ := Bool.and_eq_true_iff.mp h
  obtain ⟨-, e, rest, hq, -, -⟩ := (rspValid_iff s).mp hv
  simp [State.delivered, h, hq]

section Progress

variable {r : Nat → State} (hrun : Endless r)

include hrun

/-- A request that is offered and does not transfer is offered again, unchanged, at the next edge (R177). -/
theorem request_stands {n : Nat} (hv : (r n).reqValid = true) (ht : (r n).reqTransfers = false) :
    (r (n + 1)).reqValid = true ∧ (r (n + 1)).req = (r n).req := by
  obtain ⟨u, d, hstep, hnext⟩ := hrun n
  obtain ⟨v, -, hstep', -⟩ := hrun (n + 1)
  have hheld : (r (n + 1)).held = some (r n).req := by
    rw [hnext, State.drive_held, step_held hstep, hv, ht]
    rfl
  have hduty := mt (breaksDuty_iff _).mpr (Bool.eq_false_iff.mp (step_cases hstep').1)
  simp only [hheld, Option.some.injEq, exists_eq_left', not_or, Bool.not_eq_false, not_not] at hduty
  exact hduty

/-- An offered request is accepted, as it was offered, by the next edge at which `req_ready` is 1. -/
theorem request_accepted {n k : Nat} (hv : (r n).reqValid = true) (hready : (r (n + k)).reqReady = true) :
    ∃ m, n ≤ m ∧ (r m).accepted = [(r n).req] := by
  induction k generalizing n with
  | zero =>
    have ht : (r n).reqTransfers = true := Bool.and_eq_true_iff.mpr ⟨hv, hready⟩
    exact ⟨n, le_rfl, if_pos ht⟩
  | succ k ih =>
    cases ht : (r n).reqTransfers with
    | true => exact ⟨n, le_rfl, if_pos ht⟩
    | false =>
      obtain ⟨hv', hreq⟩ := request_stands hrun hv ht
      obtain ⟨m, hm, haccepted⟩ := ih hv' (by rwa [show n + 1 + k = n + (k + 1) by ring])
      exact ⟨m, by omega, by rw [haccepted, hreq]⟩

variable (hreset : ∀ n, (r n).inReset = false)

include hreset

/-- An offered response transfers by the next edge at which the requester is ready (R175). -/
theorem response_transfers {n k : Nat} (hv : (r n).rspValid = true) (hready : (r (n + k)).rspReady = true) :
    ∃ m, n ≤ m ∧ (r m).rspTransfers = true := by
  induction k generalizing n with
  | zero => exact ⟨n, le_rfl, Bool.and_eq_true_iff.mpr ⟨hv, hready⟩⟩
  | succ k ih =>
    cases hn : (r n).rspReady with
    | true => exact ⟨n, le_rfl, Bool.and_eq_true_iff.mpr ⟨hv, hn⟩⟩
    | false =>
      obtain ⟨u, d, hstep, hnext⟩ := hrun n
      have hd : d.rst = false := by
        rw [← State.drive_inReset u d, ← hnext]
        exact hreset (n + 1)
      have hv' : (r (n + 1)).rspValid = true := hnext ▸ rspValid_stands hv hn hstep hd
      obtain ⟨m, hm, ht⟩ := ih hv' (by rwa [show n + 1 + k = n + (k + 1) by ring])
      exact ⟨m, by omega, ht⟩

/-- What waits, followed by later answers, is what the next edges deliver, followed by what waits then (R174). -/
theorem endless_conserves_responses (n k : Nat) : ∃ answers : List Response,
    (r n).q.map Entry.rsp ++ answers = deliveredFrom r n k ++ (r (n + k)).q.map Entry.rsp := by
  induction k with
  | zero => exact ⟨[], List.append_nil _⟩
  | succ k ih =>
    obtain ⟨answers, ih⟩ := ih
    obtain ⟨u, d, hstep, hnext⟩ := hrun (n + k)
    refine ⟨answers ++ (r (n + k)).accepted.map (answerTo (r (n + k)).rom), ?_⟩
    calc (r n).q.map Entry.rsp ++ (answers ++ (r (n + k)).accepted.map (answerTo (r (n + k)).rom))
        = deliveredFrom r n k ++ ((r (n + k)).q.map Entry.rsp ++
            (r (n + k)).accepted.map (answerTo (r (n + k)).rom)) := by
          rw [← List.append_assoc, ih, List.append_assoc]
      _ = deliveredFrom r n (k + 1) ++ (r (n + (k + 1))).q.map Entry.rsp := by
          rw [step_conserves_responses (hreset (n + k)) hstep, deliveredFrom, List.append_assoc, ← Nat.add_assoc, hnext,
            State.drive_q]

variable (htransfer : ∀ n, (r n).q ≠ [] → ∃ m, n ≤ m ∧ (r m).rspTransfers = true)

include htransfer

/-- If what waits at the head of Q always transfers in the end, then as many responses are delivered as wait. -/
theorem delivered_reaches {n l : Nat} (hl : l ≤ (r n).q.length) : ∃ k, l ≤ (deliveredFrom r n k).length := by
  induction l with
  | zero => exact ⟨0, Nat.zero_le _⟩
  | succ l ih =>
    obtain ⟨k, hk⟩ := ih (by omega)
    by_cases hmore : l + 1 ≤ (deliveredFrom r n k).length
    · exact ⟨k, hmore⟩
    · obtain ⟨answers, hall⟩ := endless_conserves_responses hrun hreset n k
      have hlength := congrArg List.length hall
      simp only [List.length_append, List.length_map] at hlength
      obtain ⟨m, hm, ht⟩ := htransfer (n + k) (List.ne_nil_of_length_pos (by omega))
      obtain ⟨j, rfl⟩ := Nat.exists_eq_add_of_le hm
      have hmono := deliveredFrom_length_mono r n (Nat.le_add_right k j)
      refine ⟨k + j + 1, ?_⟩
      rw [deliveredFrom, List.length_append, ← Nat.add_assoc, delivered_length_of_rspTransfers ht]
      dsimp only at hmono
      omega

end Progress

/-- Settles O53 (R178, log 19): fairness offers what waits, the offer stands until the requester is ready
(`response_transfers`), and what is delivered comes in the order of Q (`endless_conserves_responses`). -/
theorem everyResponseIsDelivered : Obligations.EveryResponseIsDelivered := by
  intro r hrun hfair hreset hready n
  obtain ⟨hoffered, -⟩ := hfair hreset hready
  have htransfer : ∀ n, (r n).q ≠ [] → ∃ m, n ≤ m ∧ (r m).rspTransfers = true := by
    intro n hq
    obtain ⟨m, hm, hv⟩ := hoffered n hq
    obtain ⟨m', hm', hready'⟩ := hready m
    obtain ⟨k, rfl⟩ := Nat.exists_eq_add_of_le hm'
    obtain ⟨j, hj, ht⟩ := response_transfers hrun hreset hv hready'
    exact ⟨j, hm.trans hj, ht⟩
  obtain ⟨k, hk⟩ := delivered_reaches hrun hreset htransfer (le_refl (r n).q.length)
  obtain ⟨answers, hall⟩ := endless_conserves_responses hrun hreset n k
  refine ⟨k, List.prefix_of_prefix_length_le ⟨answers, hall⟩ (List.prefix_append _ _) ?_⟩
  rwa [List.length_map]

/-- Settles O54 (R177, R178, log 19): fairness makes `req_ready` 1 again and again, and an offered request stands until
then (`request_accepted`). -/
theorem offeredRequestsAreAccepted : Obligations.OfferedRequestsAreAccepted := by
  intro r hrun hfair hreset hready hroom n hv
  obtain ⟨-, haccepts⟩ := hfair hreset hready
  obtain ⟨m, hm, hready'⟩ := haccepts hroom n
  obtain ⟨k, rfl⟩ := Nat.exists_eq_add_of_le hm
  exact request_accepted hrun hv hready'

end Sys2Proof.Machine
end
